-- ==== Sys2Proof/Word.lean ====
section
/-! DEFINITION. The machine's one word: a byte (`00_scope.md` R4 `XLEN` = `ALEN` = 8, R5), and the
index of a register that exists (R4 `NREG` = 8). -/

namespace Sys2Proof

/-- A register's content, a memory byte, an address or a program counter: 8 bits, unsigned (R5). -/
abbrev Byte := BitVec 8

/-- The index of one of the eight registers R0 to R7 (R10). -/
abbrev RegIx := Fin 8

end Sys2Proof
end

