-- ==== Sys2Proof/Config.lean ====
section
/-! DEFINITION. What an implementation fixes: the constants of `00_scope.md` R4 and the TYPE of its nine
opcode parameters. The default NUMBERS of the opcodes stand in Decode.lean. There is no free value: the
spec states every result. -/

namespace Sys2Proof

/-- The nine opcode parameters of R4 and R53 (decision D2: the source gives no number). -/
structure Opcodes where
  ldi : Byte
  prn : Byte
  add : Byte
  mul : Byte
  push : Byte
  pop : Byte
  call : Byte
  ret : Byte
  hlt : Byte
  deriving DecidableEq, Repr

/-- The nine opcode bytes in the order of R53's table. -/
def Opcodes.toList (oc : Opcodes) : List Byte :=
  [oc.ldi, oc.prn, oc.add, oc.mul, oc.push, oc.pop, oc.call, oc.ret, oc.hlt]

/-- R62: the nine are pairwise distinct and none is 0xFF. -/
abbrev Opcodes.Valid (oc : Opcodes) : Prop := oc.toList.Nodup ∧ 0xFF#8 ∉ oc.toList

/-- `SP_INDEX` of R4: register 7 is the stack pointer (R11). -/
def Config.spIx : RegIx := 7

/-- `SP_INIT` of R4: R7 after reset. -/
def Config.spInit : Byte := 0xF4#8

/-- `RESET_PC` of R4. -/
def Config.resetPc : Byte := 0#8

/-- `MEM_SIZE` of R4. -/
def Config.memSize : Nat := 256

end Sys2Proof
end

