-- ==== Sys2Proof/Syntax.lean ====
section
/-! DEFINITION. The instruction set: one constructor per row of spec/opcode_table.json. -/

namespace Sys2Proof

/-- The nine instructions of `30_encoding.md` R53 and the catch-all row of `45_halt.md` R141. An operand
is the whole operand byte (R54, R55): a register operand of 8 to 255 is an encoding like any other, and
the instruction raises `OutOfBounds` when it executes (R13). -/
inductive Instr where
  /-- `LDI a, imm` (R100): register operand, immediate. -/
  | ldi (a imm : Byte)
  /-- `PRN a` (R101). -/
  | prn (a : Byte)
  /-- `ADD a, b` (R110). -/
  | add (a b : Byte)
  /-- `MUL a, b` (R111). -/
  | mul (a b : Byte)
  /-- `PUSH a` (R120). -/
  | push (a : Byte)
  /-- `POP a` (R121). -/
  | pop (a : Byte)
  /-- `CALL a` (R130). -/
  | call (a : Byte)
  /-- `RET` (R131). -/
  | ret
  /-- `HLT` (R140). -/
  | hlt
  /-- An opcode byte that is none of the nine (R57, R141), with that byte. -/
  | unrecognized (op : Byte)
  deriving DecidableEq, Repr

end Sys2Proof
end

