-- ==== Sys2Proof/WellFormed.lean ====
section
/-! DEFINITION. Which terms of `Instr` are instructions under an assignment of the opcode numbers. -/

namespace Sys2Proof

/-- The one check: an `unrecognized` term carries a byte that is none of the nine opcodes (R57). Every
operand byte is well formed, register operands of 8 to 255 included, because the decoder accepts them and
the executing instruction raises `OutOfBounds` (R13, R54). -/
def Instr.wfFor (oc : Opcodes) : Instr → Bool
  | .ldi _ _ | .prn _ | .add _ _ | .mul _ _ | .push _ | .pop _ | .call _ | .ret | .hlt => true
  | .unrecognized op => !oc.toList.contains op

end Sys2Proof
end

