-- ==== Sys2Proof/Decode.lean ====
section
/-! DEFINITION. The instruction decoder's recognition step (`40_cycle_and_units.md` R73, R81) and the
encoder, both over the opcode parameters (`30_encoding.md` R53), and the parameters' default numbers. -/

namespace Sys2Proof

/-- The default opcode numbers of R53. PRESUMED (log entry 1): they are the LS-8 family's, which the spec
supplies from general knowledge (D2); UNSAFE if the machine uses other numbers. -/
def opcodes : Opcodes where
  ldi := 0b10000010#8
  prn := 0b01000111#8
  add := 0b10100000#8
  mul := 0b10100010#8
  push := 0b01000101#8
  pop := 0b01000110#8
  call := 0b01010000#8
  ret := 0b00010001#8
  hlt := 0b00000001#8

/-- The ten outcomes of decoding an opcode byte (R73). -/
inductive Kind where
  | ldi | prn | add | mul | push | pop | call | ret | hlt | unrecognized
  deriving DecidableEq, Repr

/-- Which of the ten an instruction is. -/
def Instr.kind : Instr → Kind
  | .ldi _ _ => .ldi
  | .prn _ => .prn
  | .add _ _ => .add
  | .mul _ _ => .mul
  | .push _ => .push
  | .pop _ => .pop
  | .call _ => .call
  | .ret => .ret
  | .hlt => .hlt
  | .unrecognized _ => .unrecognized

/-- R52, R73: the whole opcode byte is compared for equality with each of the nine values. -/
def decodeKind (oc : Opcodes) (ir : Byte) : Kind :=
  if ir = oc.ldi then .ldi
  else if ir = oc.prn then .prn
  else if ir = oc.add then .add
  else if ir = oc.mul then .mul
  else if ir = oc.push then .push
  else if ir = oc.pop then .pop
  else if ir = oc.call then .call
  else if ir = oc.ret then .ret
  else if ir = oc.hlt then .hlt
  else .unrecognized

/-- What the decoder answers for a list of bytes. -/
inductive Decoded where
  /-- An instruction, and the bytes after its last one (R59). -/
  | instr (i : Instr) (rest : List Byte)
  /-- Refused: no opcode byte was given. -/
  | noOpcode
  /-- Refused: the bytes end before the operands of this opcode do (R51). -/
  | missingOperand (op : Byte)
  deriving DecidableEq, Repr

/-- The decoder: opcode byte first, then operand_a, then operand_b (R50, R51). Total on any bytes. An
opcode that is none of the nine is the instruction `unrecognized` of R141, one byte long here (log entry
6: it has no length of its own, R56). -/
def decodeWith (oc : Opcodes) : List Byte → Decoded
  | [] => .noOpcode
  | ir :: rest =>
    match decodeKind oc ir, rest with
    | .ldi, a :: b :: rest => .instr (.ldi a b) rest
    | .prn, a :: rest => .instr (.prn a) rest
    | .add, a :: b :: rest => .instr (.add a b) rest
    | .mul, a :: b :: rest => .instr (.mul a b) rest
    | .push, a :: rest => .instr (.push a) rest
    | .pop, a :: rest => .instr (.pop a) rest
    | .call, a :: rest => .instr (.call a) rest
    | .ret, rest => .instr .ret rest
    | .hlt, rest => .instr .hlt rest
    | .unrecognized, rest => .instr (.unrecognized ir) rest
    | .ldi, _ | .prn, _ | .add, _ | .mul, _ | .push, _ | .pop, _ | .call, _ => .missingOperand ir

/-- The decoder of the machine with the default opcode numbers. -/
def decode (bytes : List Byte) : Decoded := decodeWith opcodes bytes

/-- The bytes of an instruction, in the formats of R51. -/
def encodeWith (oc : Opcodes) : Instr → List Byte
  | .ldi a imm => [oc.ldi, a, imm]
  | .prn a => [oc.prn, a]
  | .add a b => [oc.add, a, b]
  | .mul a b => [oc.mul, a, b]
  | .push a => [oc.push, a]
  | .pop a => [oc.pop, a]
  | .call a => [oc.call, a]
  | .ret => [oc.ret]
  | .hlt => [oc.hlt]
  | .unrecognized op => [op]

/-- The encoder of the machine with the default opcode numbers. -/
def encode (i : Instr) : List Byte := encodeWith opcodes i

/-- Well-formedness under the default opcode numbers. -/
def Instr.wf (i : Instr) : Bool := i.wfFor opcodes

/-- The three bytes a cycle fetches, from a number laid out as spec/opcode_table.json lays an instruction
out: the opcode byte is bits 7..0, operand_a bits 15..8, operand_b bits 23..16; bits from `nbits` up
are 0. -/
def wordBytes (nbits w : Nat) : List Byte :=
  let v := w % 2 ^ nbits
  [BitVec.ofNat 8 v, BitVec.ofNat 8 (v / 256), BitVec.ofNat 8 (v / 65536)]

/-- The instruction the decoder reads from a word of the opcode table. -/
def decodeTableWord (nbits w : Nat) : Option Instr :=
  match decode (wordBytes nbits w) with
  | .instr i _ => some i
  | .noOpcode | .missingOperand _ => none

end Sys2Proof
end

