-- ==== Sys2Proof/Machine/State.lean ====
section
/-! DEFINITION. The architectural state of `10_state.md` as plain data, the reasons a run stops, and the
state after reset (R23). -/

namespace Sys2Proof.Machine

/-- Memory (R20, R30): the bytes that differ from their reset value 0 (R23), by address, in one canonical
form (`Memory.wf`). An unlisted address reads 0. -/
abbrev Memory := List Host.Cell

/-- The canonical form from address `lo` on: addresses at least `lo`, strictly rising, below `memSize`,
and no listed byte 0. -/
def Memory.wfFrom : Nat → Memory → Bool
  | _, [] => true
  | lo, (a, v) :: m =>
    decide (lo ≤ a) && decide (a < Config.memSize) && decide (v ≠ 0#8) && Memory.wfFrom (a + 1) m

/-- The canonical form of memory. -/
def Memory.wf (m : Memory) : Bool := Memory.wfFrom 0 m

/-- The ALU's operator tag (R78, R79): an enumeration with ADD, MUL and an unspecified set of other
values. DESIGN CHOICE (log entry 5): the other values are numbered; safe, no program reaches one. -/
inductive AluTag where
  | add
  | mul
  | other (n : Nat)
  deriving DecidableEq, Repr

/-- The two states of the execution engine (R18). -/
inductive RunState where
  | running
  | halted
  deriving DecidableEq, Repr

/-- The stop cause (R18, R150). -/
inductive Cause where
  | none
  | hlt
  | unrecognizedInstruction
  | outOfBounds
  | unsupportedOperation
  deriving DecidableEq, Repr

/-- The numeric codes of R18 and R150. -/
def Cause.code : Cause → Nat
  | .none => 0
  | .hlt => 1
  | .unrecognizedInstruction => 2
  | .outOfBounds => 3
  | .unsupportedOperation => 4

/-- The structured information of a stop (R18, R150): the recorded number is the out-of-range number
itself, not a byte (R151, D23). -/
inductive Info where
  | nothing
  | opcode (op : Byte)
  | memAddr (a : Int)
  | regIndex (i : Nat)
  | tag (t : AluTag)
  deriving DecidableEq, Repr

/-- What `raise` and `halt` are given (R6): a cause with its information. -/
inductive Stop where
  /-- The normal stop of HLT (R140). -/
  | hlt
  /-- `UnrecognizedInstruction(opcode)` (R141). -/
  | unrecognized (op : Byte)
  /-- `OutOfBounds(MemAddr, a)` (R151). -/
  | memAddr (a : Int)
  /-- `OutOfBounds(RegIndex, i)` (R151). -/
  | regIndex (i : Nat)
  /-- `UnsupportedOperation(tag)` (R153). -/
  | unsupported (t : AluTag)
  deriving DecidableEq, Repr

/-- The machine's state, in full (10_state.md). -/
structure State where
  /-- R0 to R7 (R10); R7 is the stack pointer (R11). -/
  regs : Vector Byte 8
  /-- The program counter (R14). -/
  pc : Byte
  /-- The 256 bytes of memory (R20). -/
  mem : Memory
  /-- `Running` or `Halted` (R18). -/
  run : RunState
  /-- Why `run` is `Halted` (R18). -/
  cause : Cause
  /-- The information recorded with the cause (R18). -/
  info : Info
  /-- The bytes sent to the output port, oldest first (R22). -/
  out : List Byte
  deriving DecidableEq, Repr

/-- Right after reset (R23): R0 to R6 zero, R7 = 0xF4, PC 0, memory zero, `Running`, nothing output. -/
def State.reset : State where
  regs := #v[0#8, 0#8, 0#8, 0#8, 0#8, 0#8, 0#8, Config.spInit]
  pc := Config.resetPc
  mem := []
  run := .running
  cause := .none
  info := .nothing
  out := []

/-- The stop report of R84, with the PC that D18 makes part of the diagnostic. -/
structure StopReport where
  cause : Cause
  info : Info
  pc : Byte
  deriving DecidableEq, Repr

/-- Faults of the model. The spec's own stops are no faults here: each is a next state that is `Halted`
(R158). -/
inductive Fault where
  /-- Raised by the cycle when the decoder refuses the three bytes it fetched. It cannot happen, since
  three bytes hold every instruction; SAFE (log entry 4). -/
  | undecodable (ir a b : Byte)
  deriving DecidableEq, Repr

/-- Refusals of the model. -/
inductive Refusal where
  /-- Raised by an arm of `exec` whose instruction has no meaning yet; SAFE. No arm does so. -/
  | notModelled (mnemonic : String)
  deriving DecidableEq, Repr

/-- The outcome of a step or an instruction. -/
abbrev Result := Host.Outcome State Fault Refusal

end Sys2Proof.Machine
end

