-- ==== Sys2Proof/Machine/Ops.lean ====
section
/-! DEFINITION. The named operations: register file (R77), memory (R31, R32), the PC adder (R80), the stop
(R158), the bounds check every computed address goes through (R45, R84), the loader's product (R182) and
the stop report (R84). -/

namespace Sys2Proof.Machine

/-! ### Register file -/

/-- `x[i]` (R6, R77). -/
def State.readReg (s : State) (r : RegIx) : Byte := s.regs[r]

/-- `x[i] <- v` (R6, R77). -/
def State.writeReg (s : State) (r : RegIx) (v : Byte) : State :=
  { s with regs := s.regs.set r.val v r.isLt }

/-- `x[7]` (R11, R82). -/
def State.sp (s : State) : Byte := s.readReg Config.spIx

/-- `x[7] <- v` (R82): the same cell an ordinary instruction writes (R77). -/
def State.writeSp (s : State) (v : Byte) : State := s.writeReg Config.spIx v

/-! ### Memory -/

/-- The byte listed at an address, 0 when none is (R23). -/
def memLookup : Memory → Nat → Byte
  | [], _ => 0#8
  | (b, v) :: m, a => if b = a then v else memLookup m a

/-- The list without the entries at an address. -/
def memErase (m : Memory) (a : Nat) : Memory := m.filter fun c => c.1 != a

/-- The list with an entry put in before the first greater address. -/
def memInsert : Memory → Nat → Byte → Memory
  | [], a, v => [(a, v)]
  | (b, w) :: m, a, v => if a < b then (a, v) :: (b, w) :: m else (b, w) :: memInsert m a v

/-- The list with one byte stored, in canonical form: a 0 is not listed. -/
def memStore (m : Memory) (a : Nat) (v : Byte) : Memory :=
  if v = 0#8 then memErase m a else memInsert (memErase m a) a v

/-- `MemRead(a, 1)` (R31). -/
def memRead (m : Memory) (a : Byte) : Byte := memLookup m a.toNat

/-- `MemWrite(a, 1, v)` (R32). -/
def memWrite (m : Memory) (a v : Byte) : Memory := memStore m a.toNat v

/-- Bytes placed at ascending addresses from `a`; what would lie above address 255 is not placed. -/
def memPlace : Memory → Nat → List Byte → Memory
  | m, _, [] => m
  | m, a, v :: vs => memPlace (if a < Config.memSize then memStore m a v else m) (a + 1) vs

/-- `MemRead` at a state. -/
def State.readMem (s : State) (a : Byte) : Byte := memRead s.mem a

/-- `MemWrite` at a state. -/
def State.writeMem (s : State) (a v : Byte) : State := { s with mem := memWrite s.mem a v }

/-! ### Program counter and output port -/

/-- `pc <- t` (R6). -/
def State.setPc (s : State) (t : Byte) : State := { s with pc := t }

/-- The PC adder (R80): the exact sum, not truncated. -/
def pcAdder (pc : Byte) (n : Nat) : Nat := pc.toNat + n

/-- `out <- out ++ [v]` (R6, R22). -/
def State.emit (s : State) (v : Byte) : State := { s with out := s.out ++ [v] }

/-! ### Stops -/

/-- The cause a stop records (R150). -/
def Stop.cause : Stop → Cause
  | .hlt => .hlt
  | .unrecognized _ => .unrecognizedInstruction
  | .memAddr _ | .regIndex _ => .outOfBounds
  | .unsupported _ => .unsupportedOperation

/-- The information a stop records (R150). -/
def Stop.info : Stop → Info
  | .hlt => .nothing
  | .unrecognized op => .opcode op
  | .memAddr a => .memAddr a
  | .regIndex i => .regIndex i
  | .unsupported t => .tag t

/-- Taking a stop (R158), the machine's one exception entry: `run`, `cause` and `info` are set, nothing is
saved, nothing else changes and control goes nowhere. There is no return from it (R159). -/
def raise (k : Stop) (s : State) : State :=
  { s with run := .halted, cause := k.cause, info := k.info }

/-- The stop report (R84): nothing while `Running`, cause, information and PC once `Halted`. -/
def State.stopReport (s : State) : Option StopReport :=
  match s.run with
  | .running => none
  | .halted => some { cause := s.cause, info := s.info, pc := s.pc }

/-! ### Check, then commit (R75)

A check takes the state the cycle began in, so that a stop leaves it unchanged, and a continuation that
makes the later checks and at last the writes. The checks of a meaning stand in the order of R157. -/

/-- One of the computed addresses of R45: in 0..255 it is used, otherwise the stop is
`OutOfBounds(MemAddr, a)`, raised by the core on the untruncated value (R84). -/
def withAddr (a : Int) (s : State) (body : Byte → Result) : Result :=
  if 0 ≤ a ∧ a ≤ 255 then body (BitVec.ofInt 8 a) else .next (raise (.memAddr a) s)

/-- `pc + n` as a next PC, an operand address or a return address (R80, R16, R72). -/
def withPcPlus (n : Nat) (s : State) (body : Byte → Result) : Result :=
  withAddr (pcAdder s.pc n) s body

/-- Fetch and operand fetch (R71, R72): the opcode at `pc`, then unconditionally operand_a at `pc + 1` and
operand_b at `pc + 2`, each address checked. -/
def withFetch (s : State) (body : Byte → Byte → Byte → Result) : Result :=
  withPcPlus 1 s fun pa =>
    withPcPlus 2 s fun pb =>
      body (s.readMem s.pc) (s.readMem pa) (s.readMem pb)

/-! ### Reset and load -/

/-- The host's reset (R84, R180): every piece of state at its reset value, whatever it was before. -/
def hostReset (_ : State) : State := State.reset

/-- The loader's product (R182, R84 `load`): the image at address 0 upward and nothing else touched; an
image of more than 256 bytes has no launch state (R185). -/
def State.load (image : List Byte) (s : State) : Option State :=
  if image.length ≤ Config.memSize then some { s with mem := memPlace s.mem 0 image } else none

/-- The launch state for an image (R182): reset, then load. -/
def launch (image : List Byte) : Option State := State.reset.load image

end Sys2Proof.Machine
end

