-- ==== Sys2Proof/Machine/Flags.lean ====
section
/-! DEFINITION. The flag computations: THERE ARE NONE. The hardware has no flags register, no condition
code and no predicate, and ADD and MUL record no carry, overflow, zero or sign (`10_state.md` R17, and R78:
the ALU has no flag outputs). The ALU's results stand in Alu.lean. -/
end

