-- ==== Sys2Proof/Machine/Operands.lean ====
section
/-! DEFINITION. The operand forms: a register operand (R54) and the one addressing mode, register-indirect
through R7 with pre-decrement or post-increment (R82, R83). An immediate is the operand byte itself (R55). -/

namespace Sys2Proof.Machine

/-- A register operand (R54, R13): the whole byte is the index; 0 to 7 select a register, 8 to 255 raise
`OutOfBounds(RegIndex, value)`. -/
def withReg (a : Byte) (s : State) (body : RegIx → Result) : Result :=
  if h : a.toNat < 8 then body ⟨a.toNat, h⟩ else .next (raise (.regIndex a.toNat) s)

/-- A push-type operation (R82, R83): the new stack pointer `x[7] - 1`, and the state in which R7 already
holds it. -/
def withPush (s : State) (body : Byte → State → Result) : Result :=
  withAddr ((s.sp.toNat : Int) - 1) s fun sp => body sp (s.writeSp sp)

/-- The end of a pop-type operation (R82, R83): `s` is the state the cycle began in and `s1` the state
after the load has reached its destination, whose R7 is incremented (the increment sees the write of
POP R7, R121). -/
def withPopped (s s1 : State) (body : State → Result) : Result :=
  withAddr ((s1.sp.toNat : Int) + 1) s fun sp => body (s1.writeSp sp)

end Sys2Proof.Machine
end

