-- ==== Sys2Proof/Machine/Alu.lean ====
section
/-! DEFINITION. The arithmetic-logic unit (R78, R79, R112): two operations, exact and then narrowed to
8 bits, and `UnsupportedOperation` for every other tag. -/

namespace Sys2Proof.Machine

/-- R78: `alu(t, p, q)`; nothing for a tag that is neither ADD nor MUL. -/
def alu (t : AluTag) (p q : Byte) : Option Byte :=
  match t with
  | .add => some (BitVec.ofNat 8 ((p.toNat + q.toNat) % 256))
  | .mul => some (BitVec.ofNat 8 ((p.toNat * q.toNat) % 256))
  | .other _ => none

/-- The use of the ALU: an unsupported tag raises `UnsupportedOperation(t)` (R153). -/
def withAlu (t : AluTag) (p q : Byte) (s : State) (body : Byte → Result) : Result :=
  match alu t p q with
  | some v => body v
  | none => .next (raise (.unsupported t) s)

/-- The ALU block on two register operands (R78): in place on `reg_a` with `reg_b` as second operand, and
the three-byte advance of ADD and MUL (R110, R111). The checks are in the order of R157. -/
def aluInPlace (t : AluTag) (a b : Byte) (s : State) : Result :=
  withReg a s fun ra =>
    withReg b s fun rb =>
      withPcPlus 3 s fun next =>
        withAlu t (s.readReg ra) (s.readReg rb) s fun v =>
          .next ((s.writeReg ra v).setPc next)

end Sys2Proof.Machine
end

