-- ==== Sys2Proof/Machine/Arith.lean ====
section
/-! DEFINITION. ADD and MUL (`42_alu.md`). -/

namespace Sys2Proof.Machine

/-- ADD (R110). -/
def execAdd (a b : Byte) (s : State) : Result := aluInPlace .add a b s

/-- MUL (R111). -/
def execMul (a b : Byte) (s : State) : Result := aluInPlace .mul a b s

end Sys2Proof.Machine
end

