-- ==== Sys2Proof/Machine/Halt.lean ====
section
/-! DEFINITION. HLT and the unrecognized opcode (`45_halt.md`). -/

namespace Sys2Proof.Machine

/-- HLT (R140): the normal stop; the PC stays at the HLT byte. -/
def execHlt (s : State) : Result := .next (raise .hlt s)

/-- An unrecognized opcode byte (R141): the soft stop, with the byte recorded. -/
def execUnrecognized (op : Byte) (s : State) : Result := .next (raise (.unrecognized op) s)

end Sys2Proof.Machine
end

