-- ==== Sys2Proof/Machine/LoadPrint.lean ====
section
/-! DEFINITION. LDI and PRN (`41_ldi_prn.md`). -/

namespace Sys2Proof.Machine

/-- LDI (R100). -/
def execLdi (a imm : Byte) (s : State) : Result :=
  withReg a s fun r =>
    withPcPlus 3 s fun next => .next ((s.writeReg r imm).setPc next)

/-- PRN (R101). -/
def execPrn (a : Byte) (s : State) : Result :=
  withReg a s fun r =>
    withPcPlus 2 s fun next => .next ((s.emit (s.readReg r)).setPc next)

end Sys2Proof.Machine
end

