-- ==== Sys2Proof/Machine/Stack.lean ====
section
/-! DEFINITION. PUSH and POP (`43_stack.md`). -/

namespace Sys2Proof.Machine

/-- PUSH (R120): the register is read after the stack pointer's update, so PUSH R7 stores the decremented
value. -/
def execPush (a : Byte) (s : State) : Result :=
  withReg a s fun r =>
    withPush s fun sp s1 =>
      withPcPlus 2 s fun next => .next ((s1.writeMem sp (s1.readReg r)).setPc next)

/-- POP (R121): the increment sees the write of the register, so POP R7 leaves the loaded value plus 1. -/
def execPop (a : Byte) (s : State) : Result :=
  withReg a s fun r =>
    withPopped s (s.writeReg r (s.readMem s.sp)) fun s2 =>
      withPcPlus 2 s fun next => .next (s2.setPc next)

end Sys2Proof.Machine
end

