-- ==== Sys2Proof/Machine/Subroutine.lean ====
section
/-! DEFINITION. CALL and RET (`44_call_ret.md`). -/

namespace Sys2Proof.Machine

/-- CALL (R130): the return address `pc + 2` is stored, and the target is read after the stack pointer's
update, so CALL R7 jumps to the decremented value. -/
def execCall (a : Byte) (s : State) : Result :=
  withReg a s fun r =>
    withPush s fun sp s1 =>
      withPcPlus 2 s fun ret => .next ((s1.writeMem sp ret).setPc (s1.readReg r))

/-- RET (R131). -/
def execRet (s : State) : Result :=
  withPopped s s fun s2 => .next (s2.setPc (s.readMem s.sp))

end Sys2Proof.Machine
end

