-- ==== Sys2Proof/Machine/Cycle.lean ====
section
/-! DEFINITION. The cycle (R70): fetch, operand fetch, decode, execute; and no cycle at all once the core
is `Halted` (R76). -/

namespace Sys2Proof.Machine

/-- One step of a core with the opcode numbers `oc`. A `Running` core makes one cycle (R70). A `Halted`
core performs no cycle and changes no state, for ever (R76): its step answers the same state. -/
def cycleWith (oc : Opcodes) (s : State) : Result :=
  match s.run with
  | .halted => .next s
  | .running =>
    withFetch s fun ir a b =>
      match decodeWith oc [ir, a, b] with
      | .instr i _ => exec i s
      | .noOpcode | .missingOperand _ => .fault (.undecodable ir a b)

/-- The bytes of an instruction placed where the next cycle fetches, on a core that will run it: the fetch
needs a `Running` core, so a stop is cleared (log entry 7). -/
def placeAtPc (s : State) (bytes : List Byte) : State :=
  { s with
    mem := memPlace s.mem s.pc.toNat bytes
    run := .running
    cause := .none
    info := .nothing }

end Sys2Proof.Machine
end

