-- ==== Sys2Proof/Machine/Step.lean ====
section
/-! DEFINITION. The machine's step, and the placing of one instruction where it fetches. -/

namespace Sys2Proof.Machine

/-- The step of the core with the default opcode numbers (R53). -/
def step (s : State) : Host.Outcome State Fault Refusal := cycleWith opcodes s

/-- `s` with the instruction of the opcode table's word stored where `step` fetches next. -/
def State.withFetchWord (s : State) (nbits w : Nat) : State := placeAtPc s (wordBytes nbits w)

end Sys2Proof.Machine
end

