-- ==== Sys2Proof/Machine/Control.lean ====
section
/-! DEFINITION. The instruction decoder block's control values, one row per kind as R81 tabulates them,
and a datapath of the five blocks (R77 to R83) that carries out any row. `exec` does not use this file: the
instruction rules are the meanings, and that the two agree is a statement. -/

namespace Sys2Proof.Machine

/-- What an operand column of R81 says of the byte. -/
inductive OperandUse where
  | reg
  | imm
  | ignored
  deriving DecidableEq, Repr

/-- R81, register write: `x[a]` from the immediate, the ALU or the byte read. -/
inductive RegWrite where
  | none
  | imm
  | alu
  | data
  deriving DecidableEq, Repr

/-- R81, SP operation. -/
inductive SpOp where
  | none
  | decrementBefore
  | incrementAfter
  deriving DecidableEq, Repr

/-- R81, memory access with its write data. -/
inductive MemAccess where
  | none
  | readAtOldSp
  | writeRegAtNewSp
  | writePcPlus2AtNewSp
  deriving DecidableEq, Repr

/-- R81, next PC. -/
inductive NextPc where
  | plus (n : Nat)
  | reg
  | data
  | unchanged
  deriving DecidableEq, Repr

/-- R81, what happens to the run state. -/
inductive HaltUse where
  | none
  | halt
  | diagnostic
  deriving DecidableEq, Repr

/-- One row of R81. -/
structure Control where
  length : Option Nat
  a : OperandUse
  b : OperandUse
  aluTag : Option AluTag
  regWrite : RegWrite
  output : Bool
  spOp : SpOp
  memory : MemAccess
  nextPc : NextPc
  halt : HaltUse
  deriving DecidableEq, Repr

/-- The table of R81. -/
def controlRow : Kind → Control
  | .ldi => ⟨some 3, .reg, .imm, none, .imm, false, .none, .none, .plus 3, .none⟩
  | .prn => ⟨some 2, .reg, .ignored, none, .none, true, .none, .none, .plus 2, .none⟩
  | .add => ⟨some 3, .reg, .reg, some .add, .alu, false, .none, .none, .plus 3, .none⟩
  | .mul => ⟨some 3, .reg, .reg, some .mul, .alu, false, .none, .none, .plus 3, .none⟩
  | .push =>
    ⟨some 2, .reg, .ignored, none, .none, false, .decrementBefore, .writeRegAtNewSp, .plus 2, .none⟩
  | .pop => ⟨some 2, .reg, .ignored, none, .data, false, .incrementAfter, .readAtOldSp, .plus 2, .none⟩
  | .call =>
    ⟨some 2, .reg, .ignored, none, .none, false, .decrementBefore, .writePcPlus2AtNewSp, .reg, .none⟩
  | .ret => ⟨some 1, .ignored, .ignored, none, .none, false, .incrementAfter, .readAtOldSp, .data, .none⟩
  | .hlt => ⟨some 1, .ignored, .ignored, none, .none, false, .none, .none, .unchanged, .halt⟩
  | .unrecognized =>
    ⟨none, .ignored, .ignored, none, .none, false, .none, .none, .unchanged, .diagnostic⟩

/-- The register a byte's three low bits select; used only behind the bounds check of R13. -/
def regLines (a : Byte) : RegIx := ⟨a.toNat % 8, Nat.mod_lt _ (by decide)⟩

/-- The bounds check of an operand column (R13). -/
def OperandUse.stop (u : OperandUse) (a : Byte) : Option Stop :=
  match u with
  | .reg => if a.toNat < 8 then none else some (.regIndex a.toNat)
  | .imm | .ignored => none

/-- The stop of a computed address that left 0..255 (R45). -/
def addrStop (a : Int) : Option Stop :=
  if 0 ≤ a ∧ a ≤ 255 then none else some (.memAddr a)

/-- The state once a pre-decrement has been made. -/
def afterDecrement (c : Control) (s : State) : State :=
  match c.spOp with
  | .decrementBefore => s.writeSp (s.sp - 1#8)
  | .none | .incrementAfter => s

/-- The ALU's result, absent when the row names no tag or an unsupported one. -/
def aluResult (c : Control) (a b : Byte) (s : State) : Option Byte :=
  c.aluTag.bind fun t => alu t (s.readReg (regLines a)) (s.readReg (regLines b))

/-- The state once the register write of `x[a]` has been made, after the load from the old SP. -/
def afterRegWrite (c : Control) (a b : Byte) (s : State) : State :=
  match c.regWrite with
  | .none => s
  | .imm => s.writeReg (regLines a) b
  | .alu => s.writeReg (regLines a) ((aluResult c a b s).getD 0#8)
  | .data => s.writeReg (regLines a) (s.readMem s.sp)

/-- The checks of a row in the order of R157, items 4 to 8. -/
def controlStops (c : Control) (a b : Byte) (s : State) : List (Option Stop) :=
  [ c.a.stop a
  , c.b.stop b
  , match c.spOp with
    | .none => none
    | .decrementBefore => addrStop ((s.sp.toNat : Int) - 1)
    | .incrementAfter => addrStop (((afterRegWrite c a b s).sp.toNat : Int) + 1)
  , match c.nextPc, c.memory with
    | .plus n, _ => addrStop (pcAdder s.pc n)
    | _, .writePcPlus2AtNewSp => addrStop (pcAdder s.pc 2)
    | _, _ => none
  , match c.aluTag with
    | none => none
    | some t => if (aluResult c a b s).isNone then some (.unsupported t) else none ]

/-- All the writes of a row (R75, R81), none of them checked. -/
def controlWrites (c : Control) (a b : Byte) (s : State) : State :=
  let s1 := afterDecrement c s
  let s2 := afterRegWrite c a b s1
  let s3 := match c.spOp with
    | .incrementAfter => s2.writeSp (s2.sp + 1#8)
    | .none | .decrementBefore => s2
  let s4 := match c.memory with
    | .none | .readAtOldSp => s3
    | .writeRegAtNewSp => s3.writeMem s1.sp (s1.readReg (regLines a))
    | .writePcPlus2AtNewSp => s3.writeMem s1.sp (s.pc + 2#8)
  let s5 := if c.output then s4.emit (s1.readReg (regLines a)) else s4
  match c.nextPc with
  | .plus n => s5.setPc (s.pc + BitVec.ofNat 8 n)
  | .reg => s5.setPc (s1.readReg (regLines a))
  | .data => s5.setPc (s.readMem s.sp)
  | .unchanged => s5

/-- The five blocks under a row of the control table: check, then commit. -/
def datapath (c : Control) (ir a b : Byte) (s : State) : Result :=
  match c.halt with
  | .halt => .next (raise .hlt s)
  | .diagnostic => .next (raise (.unrecognized ir) s)
  | .none =>
    match (controlStops c a b s).findSome? id with
    | some k => .next (raise k s)
    | none => .next (controlWrites c a b s)

end Sys2Proof.Machine
end

