-- ==== Sys2Proof/Safety.lean ====
section
/-! DEFINITION. What counts as a good run, the invariant of the machine's state, and the words in which the
statements speak of a cycle. Nothing here has a part in `step`. -/

namespace Sys2Proof.Machine

/-- The one good end of a run (R168, D9): `Halted` by HLT. -/
abbrev State.goodEnd (s : State) : Prop := s.run = .halted ∧ s.cause = .hlt

/-- The three control fields agree, as R18 and R150 tabulate them: `None` exactly when `Running`, and each
cause with its own information. `UnsupportedOperation` has no row: no program can cause it (R153). -/
def stopRecorded : RunState → Cause → Info → Bool
  | .running, .none, .nothing => true
  | .halted, .hlt, .nothing => true
  | .halted, .unrecognizedInstruction, .opcode op => !opcodes.toList.contains op
  | .halted, .outOfBounds, .memAddr a => a == -1 || a == 256
  | .halted, .outOfBounds, .regIndex i => decide (8 ≤ i) && decide (i ≤ 255)
  | _, _, _ => false

/-- The invariant: memory in canonical form, and the run state recorded as R18 says. -/
abbrev State.Inv (s : State) : Prop :=
  s.mem.wf = true ∧ stopRecorded s.run s.cause s.info = true

/-- The next cycle executes `i`: the core is `Running`, the operand fetch is in range (R72), and the three
bytes at the PC decode to `i`. -/
def Fetches (s : State) (i : Instr) : Prop :=
  s.run = .running ∧ s.pc.toNat ≤ 253 ∧
    ∃ rest, decode [s.readMem s.pc, s.readMem (s.pc + 1#8), s.readMem (s.pc + 2#8)] = .instr i rest

/-- Everything but `run`, `cause` and `info` is the same. -/
def SameButStop (s t : State) : Prop :=
  t.regs = s.regs ∧ t.pc = s.pc ∧ t.mem = s.mem ∧ t.out = s.out

/-- `run`, `cause` and `info` are the same. -/
def SameStop (s t : State) : Prop :=
  t.run = s.run ∧ t.cause = s.cause ∧ t.info = s.info

/-- The rows of the priority list of R157, items 1 to 7, in order: each with its condition. -/
def stopRows (s : State) : List (Bool × Stop) :=
  let pc := s.pc.toNat
  let ir := s.readMem s.pc
  let a := s.readMem (s.pc + 1#8)
  let b := s.readMem (s.pc + 2#8)
  let k := decodeKind opcodes ir
  let incremented := if k = .pop ∧ a = 7#8 then (s.readMem s.sp).toNat + 1 else s.sp.toNat + 1
  [ (decide (pc + 1 > 255), .memAddr (pc + 1))
  , (decide (pc + 2 > 255), .memAddr (pc + 2))
  , (decide (k = .unrecognized), .unrecognized ir)
  , (decide (a.toNat > 7 ∧ k ∈ [.ldi, .prn, .add, .mul, .push, .pop, .call]), .regIndex a.toNat)
  , (decide (b.toNat > 7 ∧ k ∈ [.add, .mul]), .regIndex b.toNat)
  , (decide (s.sp = 0#8 ∧ k ∈ [.push, .call]), .memAddr (-1))
  , (decide (incremented = 256 ∧ k ∈ [.pop, .ret]), .memAddr 256)
  , (decide (pc + 3 > 255 ∧ k ∈ [.ldi, .add, .mul]), .memAddr (pc + 3)) ]

/-- The first stop of R157's list that applies. -/
def firstStop (s : State) : Option Stop := ((stopRows s).find? fun row => row.1).map fun row => row.2

/-- The registers an instruction names in the table of R25, read or written. -/
def namesReg : Instr → RegIx → Bool
  | .ldi a _, r | .prn a, r => a.toNat == r.val
  | .add a b, r | .mul a b, r => a.toNat == r.val || b.toNat == r.val
  | .push a, r | .pop a, r | .call a, r => a.toNat == r.val || r == Config.spIx
  | .ret, r => r == Config.spIx
  | .hlt, _ | .unrecognized _, _ => false

/-- A function of states carried through a result. -/
def onNext (f : State → State) : Result → Result
  | .next t => .next (f t)
  | .fault r => .fault r
  | .refused r => .refused r

/-- What an instruction adds to the stack pointer as a stack operation (R82). -/
def spDelta : Instr → Int
  | .push _ | .call _ => -1
  | .pop _ | .ret => 1
  | .ldi _ _ | .prn _ | .add _ _ | .mul _ _ | .hlt | .unrecognized _ => 0

/-- The instruction writes R7 as an ordinary destination (R11, R189). -/
def writesSpAsRegister : Instr → Bool
  | .ldi a _ | .add a _ | .mul a _ | .pop a => a == 7#8
  | .prn _ | .push _ | .call _ | .ret | .hlt | .unrecognized _ => false

/-- A run from `s` to `u` in which no instruction writes R7 as an ordinary destination and nothing stops
but by HLT, with the net movement of the stack pointer. -/
inductive StackRun : State → Int → State → Prop where
  | done (s : State) : StackRun s 0 s
  | cycle {s t u : State} {i : Instr} {d : Int} :
      Fetches s i → writesSpAsRegister i = false → step s = .next t →
      (t.run = .running ∨ i = .hlt) → StackRun t d u → StackRun s (spDelta i + d) u

end Sys2Proof.Machine
end

