-- ==== Sys2Proof/Certificates/Slice0/Obligations.lean ====
section
/-! DEFINITION. The statements for the provers, each from the rules of spec/. Where a rule is the spec's own
decision, the docstring names it (D<n> of 92_eei_decisions.md). -/

open Sys2Proof Sys2Proof.Machine

/-! ### Reset and load -/

/-- R23: every piece of state after reset, and memory as the loaded program overwrites it. -/
def Obligations.ResetValues : Prop :=
  (∀ r : RegIx, r ≠ 7 → State.reset.readReg r = 0#8) ∧ State.reset.readReg 7 = 0xF4#8 ∧
    State.reset.pc = 0#8 ∧ (∀ x, State.reset.readMem x = 0#8) ∧ State.reset.run = .running ∧
    State.reset.cause = .none ∧ State.reset.info = .nothing ∧ State.reset.out = [] ∧
    ∀ image t, launch image = some t → ∀ x : Byte, t.readMem x = image.getD x.toNat 0#8

/-- 70_reset_and_hazards.md §2: an image of at most 256 bytes gives the launch state, a longer one has none
(D15), and the empty image stops at once (an inference the spec marks as derived, so no rule is cited). -/
def Obligations.LaunchStateOfImage : Prop :=
  (∀ image : List Byte, image.length ≤ 256 → ∃ t, launch image = some t ∧
      (∀ x : Byte, t.readMem x = image.getD x.toNat 0#8) ∧ t.regs = State.reset.regs ∧ t.pc = 0#8 ∧
      t.out = [] ∧ SameStop State.reset t) ∧
    (∀ image : List Byte, 256 < image.length → launch image = none) ∧
    ∃ t, launch [] = some t ∧ step t = .next (raise (.unrecognized 0#8) t)

/-- R181: the first cycle after reset and load fetches at address 0. -/
def Obligations.FirstCycleFetchesAtZero : Prop :=
  ∀ image t i rest, launch image = some t →
    decode [image.getD 0 0#8, image.getD 1 0#8, image.getD 2 0#8] = .instr i rest →
    t.pc = 0#8 ∧ step t = exec i t

/-- The invariant holds at reset. Its clause on memory, that the list is in canonical form, is the model's
choice of how memory is held (log entry 3); its clause on `run`, `cause` and `info` is R18's and R150's. -/
def Obligations.ResetSatisfiesInvariant : Prop := State.reset.Inv

/-- 70_reset_and_hazards.md §2: the invariant holds at the launch state of every image, so that it holds
along every run. That memory is a canonical list is the model's choice (log entry 3), not the section's. -/
def Obligations.LaunchSatisfiesInvariant : Prop :=
  ∀ image t, launch image = some t → t.Inv

/-- Every step keeps memory in its canonical form, which is the model's choice of how the 256 bytes of
20_memory.md §1 are held (log entry 3), and keeps the run state recorded as R18 and R150 tabulate it,
`UnsupportedOperation` never among the causes (R153). -/
def Obligations.StepKeepsInvariant : Prop :=
  ∀ s t, s.Inv → step s = .next t → t.Inv

/-! ### Encoding -/

/-- 30_encoding.md §2 (R53, R62): the nine default numbers, pairwise distinct and none 0xFF. The numbers are
presumed (log entry 1), so no rule is cited. -/
def Obligations.DefaultOpcodesValid : Prop :=
  opcodes.toList = [0x82#8, 0x47#8, 0xA0#8, 0xA2#8, 0x45#8, 0x46#8, 0x50#8, 0x11#8, 0x01#8] ∧
    opcodes.Valid

/-- A few words written out from the formats of 30_encoding.md, with the presumed numbers (log entry 1). That
an unrecognized byte is decoded alone, with nothing left over, and that the decoder names its refusals of
cut-off bytes, are the model's choices (log entry 6). -/
def Obligations.SampleWordsDecode : Prop :=
  decode [0b10000010#8, 0b00000011#8, 0b11111111#8] = .instr (.ldi 3#8 255#8) [] ∧
    decode [0b01000111#8, 0b00000111#8] = .instr (.prn 7#8) [] ∧
    decode [0b10100000#8, 0b00000010#8, 0b00000001#8] = .instr (.add 2#8 1#8) [] ∧
    decode [0b10100010#8, 0b00000000#8, 0b00000001#8] = .instr (.mul 0#8 1#8) [] ∧
    decode [0b01000101#8, 0b00001001#8] = .instr (.push 9#8) [] ∧
    decode [0b01000110#8, 0b00000001#8] = .instr (.pop 1#8) [] ∧
    decode [0b01010000#8, 0b00000110#8] = .instr (.call 6#8) [] ∧
    decode [0b00010001#8] = .instr .ret [] ∧ decode [0b00000001#8] = .instr .hlt [] ∧
    decode [0b11111111#8] = .instr (.unrecognized 255#8) [] ∧
    decode [0b10000010#8, 0b00000011#8] = .missingOperand 0b10000010#8 ∧ decode [] = .noOpcode

/-- Decode and encode agree: whatever valid numbers the opcodes have, the bytes of a well-formed
instruction decode to it, with every operand at every value, and the bytes after it are left over. That an
unrecognized opcode is encoded as its one byte is the model's choice (log entry 6). -/
def Obligations.EncodedInstructionDecodes : Prop :=
  ∀ oc : Opcodes, oc.Valid → ∀ i : Instr, i.wfFor oc = true → ∀ rest,
    decodeWith oc (encodeWith oc i ++ rest) = .instr i rest

/-- The other direction: what the decoder accepts are the bytes of a well-formed instruction, so an
instruction has one encoding (30_encoding.md §1). For an unrecognized opcode the one-byte encoding is the
model's choice (log entry 6): R56 gives it no length. -/
def Obligations.DecodedBytesAreEncoding : Prop :=
  ∀ (oc : Opcodes) bytes i rest, decodeWith oc bytes = .instr i rest →
    bytes = encodeWith oc i ++ rest ∧ i.wfFor oc = true

/-- R73: the opcode byte alone, compared for equality with the nine values, selects exactly one of ten
outcomes, and the operand bytes do not influence which. -/
def Obligations.OpcodeByteAloneSelectsInstruction : Prop :=
  ∀ oc : Opcodes, oc.Valid → ∀ ir : Byte,
    (decodeKind oc ir = .ldi ↔ ir = oc.ldi) ∧ (decodeKind oc ir = .prn ↔ ir = oc.prn) ∧
    (decodeKind oc ir = .add ↔ ir = oc.add) ∧ (decodeKind oc ir = .mul ↔ ir = oc.mul) ∧
    (decodeKind oc ir = .push ↔ ir = oc.push) ∧ (decodeKind oc ir = .pop ↔ ir = oc.pop) ∧
    (decodeKind oc ir = .call ↔ ir = oc.call) ∧ (decodeKind oc ir = .ret ↔ ir = oc.ret) ∧
    (decodeKind oc ir = .hlt ↔ ir = oc.hlt) ∧
    (decodeKind oc ir = .unrecognized ↔ ir ∉ oc.toList) ∧
    ∀ a b : Byte, ∃ i rest, decodeWith oc [ir, a, b] = .instr i rest ∧ i.kind = decodeKind oc ir

/-- 30_encoding.md §5 (R57): every byte but the nine is unrecognized, 247 of the 256 with the default numbers
(presumed, log entry 1, so no rule is cited), and fetching one as an
opcode stops the machine with `UnrecognizedInstruction`. -/
def Obligations.EveryOtherOpcodeByteIsUnrecognized : Prop :=
  (∀ (oc : Opcodes) (s : State), s.run = .running → s.pc.toNat ≤ 253 → s.readMem s.pc ∉ oc.toList →
      cycleWith oc s = .next (raise (.unrecognized (s.readMem s.pc)) s)) ∧
    (∀ ir : Byte, decodeKind opcodes ir = .unrecognized ↔
      ir ∉ [0x01#8, 0x11#8, 0x45#8, 0x46#8, 0x47#8, 0x50#8, 0x82#8, 0xA0#8, 0xA2#8]) ∧
    ((List.range 256).filter fun n => decodeKind opcodes (BitVec.ofNat 8 n) = .unrecognized).length = 247

/-- R59: bytes after the last byte of the format have no effect, and an instruction of any length at 254 or
255 faults because they are fetched all the same. -/
def Obligations.UnusedOperandBytesIgnored : Prop :=
  (∀ (oc : Opcodes) ir, decodeKind oc ir ∈ [Kind.ret, .hlt] →
      ∃ i, ∀ a b, decodeWith oc [ir, a, b] = .instr i [a, b]) ∧
    (∀ (oc : Opcodes) ir a, decodeKind oc ir ∈ [Kind.prn, .push, .pop, .call] →
      ∃ i, ∀ b, decodeWith oc [ir, a, b] = .instr i [b]) ∧
    ∀ (oc : Opcodes) (s : State), s.run = .running → 254 ≤ s.pc.toNat →
      cycleWith oc s = .next (raise (.memAddr 256) s)

/-! ### The cycle -/

/-- R71, R74: the byte at the PC with the two after it, decoded, is the instruction that runs, and the step
adds nothing to that instruction's own rule (no advance after dispatch). -/
def Obligations.CycleRunsDecodedInstruction : Prop :=
  (∀ (oc : Opcodes) (s : State) i rest, s.run = .running → s.pc.toNat ≤ 253 →
      decodeWith oc [s.readMem s.pc, s.readMem (s.pc + 1#8), s.readMem (s.pc + 2#8)] = .instr i rest →
      cycleWith oc s = exec i s) ∧
    ∀ s i, Fetches s i → step s = exec i s

/-- R70: the step function as the rule writes it, over the opcode parameters. -/
def Obligations.CycleFollowsStepFunction : Prop :=
  ∀ (oc : Opcodes) (s : State), oc.Valid → s.run = .running →
    if s.pc.toNat + 1 > 255 then cycleWith oc s = .next (raise (.memAddr (s.pc.toNat + 1)) s)
    else if s.pc.toNat + 2 > 255 then cycleWith oc s = .next (raise (.memAddr (s.pc.toNat + 2)) s)
    else
      let ir := s.readMem s.pc
      let a := s.readMem (s.pc + 1#8)
      let b := s.readMem (s.pc + 2#8)
      (ir = oc.ldi → cycleWith oc s = exec (.ldi a b) s) ∧
      (ir = oc.prn → cycleWith oc s = exec (.prn a) s) ∧
      (ir = oc.add → cycleWith oc s = exec (.add a b) s) ∧
      (ir = oc.mul → cycleWith oc s = exec (.mul a b) s) ∧
      (ir = oc.push → cycleWith oc s = exec (.push a) s) ∧
      (ir = oc.pop → cycleWith oc s = exec (.pop a) s) ∧
      (ir = oc.call → cycleWith oc s = exec (.call a) s) ∧
      (ir = oc.ret → cycleWith oc s = exec .ret s) ∧
      (ir = oc.hlt → cycleWith oc s = exec .hlt s) ∧
      (ir ∉ oc.toList → cycleWith oc s = exec (.unrecognized ir) s)

/-- R72 (the spec's decision D3): both operand bytes are fetched in every cycle, so no opcode executes from
address 254 or 255, and from 0 to 253 the fetch never stops the cycle. -/
def Obligations.OperandFetchIsUnconditional : Prop :=
  ∀ (oc : Opcodes) (s : State), s.run = .running →
    (s.pc = 255#8 → cycleWith oc s = .next (raise (.memAddr 256) s)) ∧
    (s.pc = 254#8 → cycleWith oc s = .next (raise (.memAddr 256) s)) ∧
    (s.pc.toNat ≤ 253 → ∃ i rest,
      decodeWith oc [s.readMem s.pc, s.readMem (s.pc + 1#8), s.readMem (s.pc + 2#8)] = .instr i rest ∧
      cycleWith oc s = exec i s)

/-- R76: a halted core performs no cycle and changes nothing, however many steps it is given; only reset
leaves it (the spec's decision D20), and keeps nothing. -/
def Obligations.HaltedCoreStaysUnchanged : Prop :=
  ∀ s : State, s.run = .halted →
    (∀ oc : Opcodes, cycleWith oc s = .next s) ∧ (∀ k, Host.Core.run core k s = .next s) ∧
    (hostReset s).run = .running ∧ hostReset s = State.reset

/-- A running machine is never stuck: its cycle completes or stops (40_cycle_and_units.md §1, R70, R73;
93_implementation_defined.md U11). That a halted core, which performs no cycle (R76), answers next with the
same state, and that the model's fault `undecodable` cannot be reached, are the model's choices (log entry
4). -/
def Obligations.EveryStepAnswersNext : Prop :=
  ∀ (oc : Opcodes) (s : State), ∃ t, cycleWith oc s = .next t

/-- R15: the next PC of every instruction, without wrapping. -/
def Obligations.NextPcTable : Prop :=
  ∀ s t i, Fetches s i → step s = .next t →
    match i with
    | .ldi _ _ | .add _ _ | .mul _ _ => t.run = .running → t.pc.toNat = s.pc.toNat + 3
    | .prn _ | .push _ | .pop _ => t.run = .running → t.pc.toNat = s.pc.toNat + 2
    | .call a => ∀ r : RegIx, r.val = a.toNat → t.run = .running →
        t.pc = (s.writeSp (s.sp - 1#8)).readReg r
    | .ret => t.run = .running → t.pc = s.readMem s.sp
    | .hlt | .unrecognized _ => t.pc = s.pc

/-! ### The units -/

/-- R77: reads and writes of the register file with the bounds contract, and R7 in no separate cell. -/
def Obligations.RegisterFileContract : Prop :=
  (∀ (s : State) (r q : RegIx) v,
      (s.writeReg r v).readReg q = (if q = r then v else s.readReg q) ∧
      (s.writeReg r v).pc = s.pc ∧ (s.writeReg r v).mem = s.mem ∧ (s.writeReg r v).out = s.out ∧
      SameStop s (s.writeReg r v)) ∧
    (∀ (s : State) (a : Byte) body,
      (∀ r : RegIx, r.val = a.toNat → withReg a s body = body r) ∧
      (8 ≤ a.toNat → withReg a s body = .next (raise (.regIndex a.toNat) s))) ∧
    ∀ (s : State) v, s.sp = s.readReg 7 ∧ s.writeSp v = s.writeReg 7 v

/-- R13, R54: a register operand is the whole byte: 0 to 7 select R0 to R7, and 8 to 255, unmasked, raise
`OutOfBounds(RegIndex, value)` in every instruction that has one, before anything is written. -/
def Obligations.OutOfRangeRegisterOperandStops : Prop :=
  (∀ (a : Byte) (s : State) (r : RegIx) body, r.val = a.toNat → withReg a s body = body r) ∧
  (∀ n s, SameButStop s (raise (.regIndex n) s)) ∧
  (∀ (a b : Byte) (s : State), 8 ≤ a.toNat →
      exec (.ldi a b) s = .next (raise (.regIndex a.toNat) s) ∧
      exec (.prn a) s = .next (raise (.regIndex a.toNat) s) ∧
      exec (.add a b) s = .next (raise (.regIndex a.toNat) s) ∧
      exec (.mul a b) s = .next (raise (.regIndex a.toNat) s) ∧
      exec (.push a) s = .next (raise (.regIndex a.toNat) s) ∧
      exec (.pop a) s = .next (raise (.regIndex a.toNat) s) ∧
      exec (.call a) s = .next (raise (.regIndex a.toNat) s)) ∧
    ∀ (a b : Byte) (s : State), a.toNat ≤ 7 → 8 ≤ b.toNat →
      exec (.add a b) s = .next (raise (.regIndex b.toNat) s) ∧
      exec (.mul a b) s = .next (raise (.regIndex b.toNat) s)

/-- 20_memory.md §1: a store sets the one byte it addresses, nothing else changes, and an address outside
0..255 never reaches memory but raises `OutOfBounds`. -/
def Obligations.MemoryReadWriteContract : Prop :=
  (∀ (s : State) (x y v : Byte),
      (s.writeMem x v).readMem y = (if y = x then v else s.readMem y) ∧
      (s.writeMem x v).regs = s.regs ∧ (s.writeMem x v).pc = s.pc ∧ (s.writeMem x v).out = s.out ∧
      SameStop s (s.writeMem x v)) ∧
    ∀ (s : State) (x : Int) body,
      (∀ y : Byte, (y.toNat : Int) = x → withAddr x s body = body y) ∧
      (x < 0 ∨ 255 < x → withAddr x s body = .next (raise (.memAddr x) s))

/-- R78 (wrap: the spec's decision D1): the ALU's results, in place on `reg_a`, and its failure on any other
tag. -/
def Obligations.AluContract : Prop :=
  (∀ p q : Byte, ∃ v, alu .add p q = some v ∧ v.toNat = (p.toNat + q.toNat) % 256) ∧
    (∀ p q : Byte, ∃ v, alu .mul p q = some v ∧ v.toNat = (p.toNat * q.toNat) % 256) ∧
    (∀ n p q, alu (.other n) p q = none) ∧
    ∀ (tag : AluTag) (s : State) (a b : Byte) (ra rb : RegIx), ra.val = a.toNat → rb.val = b.toNat →
      s.pc.toNat ≤ 252 →
      match alu tag (s.readReg ra) (s.readReg rb) with
      | some v => ∃ t, aluInPlace tag a b s = .next t ∧ t.readReg ra = v ∧
          ∀ r, r ≠ ra → t.readReg r = s.readReg r
      | none => aluInPlace tag a b s = .next (raise (.unsupported tag) s)

/-- R153: the ALU block alone raises `UnsupportedOperation` on another tag, and no step of the core ever
causes it. -/
def Obligations.UnsupportedOperationUnreachable : Prop :=
  (∀ n p q (s : State) body,
      withAlu (.other n) p q s body = .next (raise (.unsupported (.other n)) s)) ∧
    ∀ s t, step s = .next t → t.cause = .unsupportedOperation → s.cause = .unsupportedOperation

/-- R83 (the spec's decision D5): the stack pointer does not wrap; the stop is precise; and R7 as an
ordinary destination takes any byte. -/
def Obligations.StackPointerDoesNotWrap : Prop :=
  (∀ (a : Byte) (s : State), a.toNat ≤ 7 → s.sp = 0#8 →
      exec (.push a) s = .next (raise (.memAddr (-1)) s) ∧
      exec (.call a) s = .next (raise (.memAddr (-1)) s)) ∧
    (∀ s : State, s.sp = 255#8 → exec .ret s = .next (raise (.memAddr 256) s)) ∧
    (∀ (a : Byte) (s : State), a.toNat ≤ 6 → s.sp = 255#8 →
      exec (.pop a) s = .next (raise (.memAddr 256) s)) ∧
    (∀ s : State, s.readMem s.sp = 255#8 → exec (.pop 7#8) s = .next (raise (.memAddr 256) s)) ∧
    ∀ (s : State) (v b : Byte) (rb : RegIx), rb.val = b.toNat → s.pc.toNat ≤ 252 →
      (∃ t, exec (.ldi 7#8 v) s = .next t ∧ t.sp = v) ∧
      (∃ t, exec (.add 7#8 b) s = .next t ∧ t.sp = s.sp + s.readReg rb) ∧
      (∃ t, exec (.mul 7#8 b) s = .next t ∧ t.sp = s.sp * s.readReg rb)

/-! ### The instructions -/

/-- R100: LDI, its encoding, effect and stops. -/
def Obligations.LdiRule : Prop :=
  (∀ (oc : Opcodes) a imm, encodeWith oc (.ldi a imm) = [oc.ldi, a, imm]) ∧
    (∀ (a imm : Byte) (s : State), a.toNat ≤ 7 → s.pc.toNat ≤ 252 → ∃ t,
      exec (.ldi a imm) s = .next t ∧
      (∀ r : RegIx, t.readReg r = if r.val = a.toNat then imm else s.readReg r) ∧
      t.pc = s.pc + 3#8 ∧ t.mem = s.mem ∧ t.out = s.out ∧ SameStop s t) ∧
    (∀ (a imm : Byte) (s : State), 8 ≤ a.toNat →
      exec (.ldi a imm) s = .next (raise (.regIndex a.toNat) s)) ∧
    ∀ (a imm : Byte) (s : State), a.toNat ≤ 7 → s.pc.toNat = 253 →
      exec (.ldi a imm) s = .next (raise (.memAddr 256) s)

/-- R101: PRN, its encoding, effect and stop. -/
def Obligations.PrnRule : Prop :=
  (∀ (oc : Opcodes) a, encodeWith oc (.prn a) = [oc.prn, a]) ∧
    (∀ (a : Byte) (s : State) (ra : RegIx), ra.val = a.toNat → s.pc.toNat ≤ 253 → ∃ t,
      exec (.prn a) s = .next t ∧ t.out = s.out ++ [s.readReg ra] ∧ t.pc = s.pc + 2#8 ∧
      t.regs = s.regs ∧ t.mem = s.mem ∧ SameStop s t) ∧
    ∀ (a : Byte) (s : State), 8 ≤ a.toNat → exec (.prn a) s = .next (raise (.regIndex a.toNat) s)

/-- R110: ADD, its encoding, effect (both operands read before the write; the wrap is D1's) and stops. -/
def Obligations.AddRule : Prop :=
  (∀ (oc : Opcodes) a b, encodeWith oc (.add a b) = [oc.add, a, b]) ∧
    (∀ (a b : Byte) (s : State) (ra rb : RegIx), ra.val = a.toNat → rb.val = b.toNat →
      s.pc.toNat ≤ 252 → ∃ t, exec (.add a b) s = .next t ∧
      (t.readReg ra).toNat = ((s.readReg ra).toNat + (s.readReg rb).toNat) % 256 ∧
      (∀ r, r ≠ ra → t.readReg r = s.readReg r) ∧
      t.pc = s.pc + 3#8 ∧ t.mem = s.mem ∧ t.out = s.out ∧ SameStop s t) ∧
    (∀ (a b : Byte) (s : State), 8 ≤ a.toNat →
      exec (.add a b) s = .next (raise (.regIndex a.toNat) s)) ∧
    (∀ (a b : Byte) (s : State), a.toNat ≤ 7 → 8 ≤ b.toNat →
      exec (.add a b) s = .next (raise (.regIndex b.toNat) s)) ∧
    ∀ (a b : Byte) (s : State), a.toNat ≤ 7 → b.toNat ≤ 7 → s.pc.toNat = 253 →
      exec (.add a b) s = .next (raise (.memAddr 256) s)

/-- R111: MUL, its encoding, effect (the low 8 bits of the product, D1) and stops. -/
def Obligations.MulRule : Prop :=
  (∀ (oc : Opcodes) a b, encodeWith oc (.mul a b) = [oc.mul, a, b]) ∧
    (∀ (a b : Byte) (s : State) (ra rb : RegIx), ra.val = a.toNat → rb.val = b.toNat →
      s.pc.toNat ≤ 252 → ∃ t, exec (.mul a b) s = .next t ∧
      (t.readReg ra).toNat = ((s.readReg ra).toNat * (s.readReg rb).toNat) % 256 ∧
      (∀ r, r ≠ ra → t.readReg r = s.readReg r) ∧
      t.pc = s.pc + 3#8 ∧ t.mem = s.mem ∧ t.out = s.out ∧ SameStop s t) ∧
    (∀ (a b : Byte) (s : State), 8 ≤ a.toNat →
      exec (.mul a b) s = .next (raise (.regIndex a.toNat) s)) ∧
    (∀ (a b : Byte) (s : State), a.toNat ≤ 7 → 8 ≤ b.toNat →
      exec (.mul a b) s = .next (raise (.regIndex b.toNat) s)) ∧
    ∀ (a b : Byte) (s : State), a.toNat ≤ 7 → b.toNat ≤ 7 → s.pc.toNat = 253 →
      exec (.mul a b) s = .next (raise (.memAddr 256) s)

/-- R120: PUSH, its encoding, effect (PUSH R7 stores the decremented stack pointer) and stops. -/
def Obligations.PushRule : Prop :=
  (∀ (oc : Opcodes) a, encodeWith oc (.push a) = [oc.push, a]) ∧
    (∀ (a : Byte) (s : State) (ra : RegIx), ra.val = a.toNat → s.sp ≠ 0#8 → s.pc.toNat ≤ 253 → ∃ t,
      exec (.push a) s = .next t ∧ t.sp.toNat = s.sp.toNat - 1 ∧
      (∀ r : RegIx, r ≠ 7 → t.readReg r = s.readReg r) ∧
      (∀ x : Byte, t.readMem x = if x.toNat = s.sp.toNat - 1
        then (if ra = 7 then s.sp - 1#8 else s.readReg ra) else s.readMem x) ∧
      t.pc = s.pc + 2#8 ∧ t.out = s.out ∧ SameStop s t) ∧
    (∀ (a : Byte) (s : State), 8 ≤ a.toNat →
      exec (.push a) s = .next (raise (.regIndex a.toNat) s)) ∧
    ∀ (a : Byte) (s : State), a.toNat ≤ 7 → s.sp = 0#8 →
      exec (.push a) s = .next (raise (.memAddr (-1)) s)

/-- R121: POP, its encoding, effect (POP R7 leaves the loaded value plus 1) and stops. -/
def Obligations.PopRule : Prop :=
  (∀ (oc : Opcodes) a, encodeWith oc (.pop a) = [oc.pop, a]) ∧
    (∀ (a : Byte) (s : State) (ra : RegIx), ra.val = a.toNat →
      (if ra = 7 then s.readMem s.sp else s.sp) ≠ 255#8 → s.pc.toNat ≤ 253 → ∃ t,
      exec (.pop a) s = .next t ∧
      t.sp.toNat = (if ra = 7 then s.readMem s.sp else s.sp).toNat + 1 ∧
      (∀ r : RegIx, r ≠ 7 → t.readReg r = if r = ra then s.readMem s.sp else s.readReg r) ∧
      t.pc = s.pc + 2#8 ∧ t.mem = s.mem ∧ t.out = s.out ∧ SameStop s t) ∧
    (∀ (a : Byte) (s : State), 8 ≤ a.toNat →
      exec (.pop a) s = .next (raise (.regIndex a.toNat) s)) ∧
    ∀ (a : Byte) (s : State) (ra : RegIx), ra.val = a.toNat →
      (if ra = 7 then s.readMem s.sp else s.sp) = 255#8 →
      exec (.pop a) s = .next (raise (.memAddr 256) s)

/-- R130: CALL, its encoding, effect (CALL R7 jumps to the decremented stack pointer) and stops. -/
def Obligations.CallRule : Prop :=
  (∀ (oc : Opcodes) a, encodeWith oc (.call a) = [oc.call, a]) ∧
    (∀ (a : Byte) (s : State) (ra : RegIx), ra.val = a.toNat → s.sp ≠ 0#8 → s.pc.toNat ≤ 253 → ∃ t,
      exec (.call a) s = .next t ∧ t.sp.toNat = s.sp.toNat - 1 ∧
      (∀ r : RegIx, r ≠ 7 → t.readReg r = s.readReg r) ∧
      (∀ x : Byte, t.readMem x = if x.toNat = s.sp.toNat - 1 then s.pc + 2#8 else s.readMem x) ∧
      t.pc = (if ra = 7 then s.sp - 1#8 else s.readReg ra) ∧ t.out = s.out ∧ SameStop s t) ∧
    (∀ (a : Byte) (s : State), 8 ≤ a.toNat →
      exec (.call a) s = .next (raise (.regIndex a.toNat) s)) ∧
    ∀ (a : Byte) (s : State), a.toNat ≤ 7 → s.sp = 0#8 →
      exec (.call a) s = .next (raise (.memAddr (-1)) s)

/-- R131: RET, its encoding, effect and stop. -/
def Obligations.RetRule : Prop :=
  (∀ oc : Opcodes, encodeWith oc .ret = [oc.ret]) ∧
    (∀ s : State, s.sp ≠ 255#8 → ∃ t, exec .ret s = .next t ∧ t.pc = s.readMem s.sp ∧
      t.sp.toNat = s.sp.toNat + 1 ∧ (∀ r : RegIx, r ≠ 7 → t.readReg r = s.readReg r) ∧
      t.mem = s.mem ∧ t.out = s.out ∧ SameStop s t) ∧
    ∀ s : State, s.sp = 255#8 → exec .ret s = .next (raise (.memAddr 256) s)

/-- R140: HLT, its encoding and effect; the PC is not advanced and nothing is output. -/
def Obligations.HltRule : Prop :=
  (∀ oc : Opcodes, encodeWith oc .hlt = [oc.hlt]) ∧
    (∀ s : State, ∃ t, exec .hlt s = .next t ∧ t.run = .halted ∧ t.cause = .hlt ∧ t.info = .nothing ∧
      SameButStop s t) ∧
    ∀ (oc : Opcodes) (s : State), s.run = .running → 254 ≤ s.pc.toNat →
      cycleWith oc s = .next (raise (.memAddr 256) s)

/-- R141: the unrecognized opcode's soft stop, with the byte recorded; the operand-fetch check comes
first. -/
def Obligations.UnrecognizedRule : Prop :=
  (∀ (op : Byte) (s : State), ∃ t, exec (.unrecognized op) s = .next t ∧ t.run = .halted ∧
      t.cause = .unrecognizedInstruction ∧ t.info = .opcode op ∧ SameButStop s t) ∧
    (∀ (oc : Opcodes) (s : State), s.run = .running → s.readMem s.pc ∉ oc.toList →
      cycleWith oc s = .next (raise
        (if s.pc.toNat ≤ 253 then .unrecognized (s.readMem s.pc) else .memAddr 256) s)) ∧
    ∀ s t : State, s.run = .running → step s = .next t → t.run = .halted →
      t.cause = .unrecognizedInstruction →
      t.stopReport = some ⟨.unrecognizedInstruction, .opcode (s.readMem s.pc), s.pc⟩

/-! ### Frames -/

/-- 10_state.md §1, 41_ldi_prn.md, 42_alu.md: what LDI, ADD, MUL and PRN leave unchanged, whether they
complete or stop. -/
def Obligations.FrameOfRegisterInstructions : Prop :=
  (∀ (a b : Byte) (s t : State),
      exec (.ldi a b) s = .next t ∨ exec (.add a b) s = .next t ∨ exec (.mul a b) s = .next t →
      (∀ r : RegIx, r.val ≠ a.toNat → t.readReg r = s.readReg r) ∧
      (∀ x, t.readMem x = s.readMem x) ∧ t.out = s.out ∧
      (SameStop s t ∨ t.run = .halted ∧ SameButStop s t)) ∧
    ∀ (a : Byte) (s t : State), exec (.prn a) s = .next t →
      (∀ r : RegIx, t.readReg r = s.readReg r) ∧ (∀ x, t.readMem x = s.readMem x) ∧
      (SameStop s t ∨ t.run = .halted ∧ SameButStop s t)

/-- 20_memory.md §8, 43_stack.md, 44_call_ret.md: PUSH and CALL change no register but R7 and no byte but
the one at `x[7] - 1`, the address the push-type operation computes. -/
def Obligations.FrameOfStoringInstructions : Prop :=
  ∀ (a : Byte) (s t : State), exec (.push a) s = .next t ∨ exec (.call a) s = .next t →
    (∀ r : RegIx, r ≠ 7 → t.readReg r = s.readReg r) ∧
    (∀ x : Byte, (x.toNat : Int) ≠ (s.sp.toNat : Int) - 1 → t.readMem x = s.readMem x) ∧
    t.out = s.out ∧ (SameStop s t ∨ t.run = .halted ∧ SameButStop s t)

/-- 20_memory.md §8, 43_stack.md, 44_call_ret.md: POP changes no register but its destination and R7, RET
none but R7, and neither changes memory. -/
def Obligations.FrameOfLoadingInstructions : Prop :=
  (∀ (a : Byte) (s t : State), exec (.pop a) s = .next t →
      (∀ r : RegIx, r ≠ 7 → r.val ≠ a.toNat → t.readReg r = s.readReg r) ∧
      (∀ x, t.readMem x = s.readMem x) ∧ t.out = s.out ∧
      (SameStop s t ∨ t.run = .halted ∧ SameButStop s t)) ∧
    ∀ s t : State, exec .ret s = .next t →
      (∀ r : RegIx, r ≠ 7 → t.readReg r = s.readReg r) ∧
      (∀ x, t.readMem x = s.readMem x) ∧ t.out = s.out ∧
      (SameStop s t ∨ t.run = .halted ∧ SameButStop s t)

/-- 10_state.md §1, the table of register use: an instruction neither reads nor writes a register it does
not name there. Putting another value into such a register before the instruction or after it is the
same. (The spec marks the table as derived, so no rule is cited.) -/
def Obligations.UnnamedRegistersHaveNoPart : Prop :=
  ∀ (i : Instr) (r : RegIx) (v : Byte) (s : State), namesReg i r = false →
    exec i (s.writeReg r v) = onNext (fun t => t.writeReg r v) (exec i s)

/-- 20_memory.md §8: a step leaves every byte of memory unchanged but the one that PUSH or CALL stores at
`x[7] - 1`, and that one holds the register read after the decrement, or the return address. -/
def Obligations.OnlyPushAndCallStore : Prop :=
  ∀ (s t : State) (x : Byte), step s = .next t → t.readMem x ≠ s.readMem x →
    (x.toNat : Int) = (s.sp.toNat : Int) - 1 ∧
    ((∃ (a : Byte) (r : RegIx), r.val = a.toNat ∧ Fetches s (.push a) ∧
        t.readMem x = (s.writeSp (s.sp - 1#8)).readReg r) ∨
      ∃ a, Fetches s (.call a) ∧ t.readMem x = s.pc + 2#8)

/-- 20_memory.md §8: a cycle reads no byte but the three it fetches and, in POP and RET, the one at `x[7]`.
Another value in any other byte changes nothing in the cycle: that byte keeps it, unless PUSH or CALL stores
there, and then it holds what it would have held. -/
def Obligations.CycleReadsOnlyFetchedAndPoppedBytes : Prop :=
  ∀ (s t : State) (x v : Byte), x ≠ s.pc → x ≠ s.pc + 1#8 → x ≠ s.pc + 2#8 →
    (x = s.sp → ∀ i, Fetches s i → i.kind ≠ .pop ∧ i.kind ≠ .ret) → step s = .next t →
    ∃ t', step (s.writeMem x v) = .next t' ∧
      t'.regs = t.regs ∧ t'.pc = t.pc ∧ t'.out = t.out ∧ SameStop t t' ∧
      (∀ y, y ≠ x → t'.readMem y = t.readMem y) ∧
      (t'.readMem x = v ∨
        t'.readMem x = t.readMem x ∧ (x.toNat : Int) = (s.sp.toNat : Int) - 1 ∧
          ∃ i, Fetches s i ∧ (i.kind = .push ∨ i.kind = .call))

/-- R22: `out` is empty at reset, grows by the register's byte at each PRN and otherwise stays, and nothing
in the machine reads it: another history of the port changes nothing but itself. -/
def Obligations.OutputGrowsOnlyByPrn : Prop :=
  State.reset.out = [] ∧
    ∀ s t : State, step s = .next t → ∃ d,
      t.out = s.out ++ d ∧
      (d = [] ∨ ∃ (a : Byte) (r : RegIx), r.val = a.toNat ∧ Fetches s (.prn a) ∧ d = [s.readReg r]) ∧
      (∀ (a : Byte) (r : RegIx), r.val = a.toNat → Fetches s (.prn a) → d = [s.readReg r]) ∧
      ∀ o, step { s with out := o } = .next { t with out := o ++ d }

/-! ### Stops -/

/-- R158: what a stop does, and that it does nothing else. -/
def Obligations.RaiseSetsRunCauseInfoOnly : Prop :=
  (∀ (k : Stop) (s : State), (raise k s).run = .halted ∧ SameButStop s (raise k s)) ∧
    ∀ s : State,
      ((raise .hlt s).cause = .hlt ∧ (raise .hlt s).info = .nothing) ∧
      (∀ op, (raise (.unrecognized op) s).cause = .unrecognizedInstruction ∧
        (raise (.unrecognized op) s).info = .opcode op) ∧
      (∀ x, (raise (.memAddr x) s).cause = .outOfBounds ∧ (raise (.memAddr x) s).info = .memAddr x) ∧
      (∀ n, (raise (.regIndex n) s).cause = .outOfBounds ∧
        (raise (.regIndex n) s).info = .regIndex n) ∧
      ∀ tag, (raise (.unsupported tag) s).cause = .unsupportedOperation ∧
        (raise (.unsupported tag) s).info = .tag tag

/-- R75 (the spec's decision D6): every stop is precise, of a whole cycle and of every instruction's rule. -/
def Obligations.StopsArePrecise : Prop :=
  ∀ s t : State, s.run = .running → t.run = .halted →
    (step s = .next t → SameButStop s t) ∧ ∀ i, exec i s = .next t → SameButStop s t

/-- R157 (the spec's decision D8): the stop reported is the first of the list that applies; when none does,
the cycle completes, or it is HLT and the machine stops normally. -/
def Obligations.FirstApplicableStopIsReported : Prop :=
  ∀ s : State, s.run = .running →
    match firstStop s with
    | some k => step s = .next (raise k s)
    | none => ∃ t, step s = .next t ∧
        if s.readMem s.pc = opcodes.hlt then t = raise .hlt s else t.run = .running

/-- 70_reset_and_hazards.md §3: a running core's step keeps it `Running` or ends the run in one of exactly
three ways: HLT, an unrecognized opcode, a bounds error with its number. -/
def Obligations.RunEndsInThreeWays : Prop :=
  ∀ s t : State, s.run = .running → step s = .next t →
    t.run = .running ∨ (Fetches s .hlt ∧ t = raise .hlt s) ∨
      (∃ op, Fetches s (.unrecognized op) ∧ t = raise (.unrecognized op) s) ∨
      (∃ x : Int, (x = -1 ∨ x = 256) ∧ t = raise (.memAddr x) s) ∨
      ∃ n, 8 ≤ n ∧ n ≤ 255 ∧ t = raise (.regIndex n) s

/-- 60_exceptions.md §3 (two tiers): the good end, `cause = HLT`, is reached by executing HLT and in no
other way. -/
def Obligations.GoodEndExactlyByHlt : Prop :=
  ∀ s t : State, s.run = .running → step s = .next t → (t.goodEnd ↔ Fetches s .hlt)

/-! ### Laws over several instructions -/

/-- 20_memory.md §7 (derived there): a byte PUSH stores over the next instruction's opcode is the opcode
that the next cycle decodes. -/
def Obligations.StoredByteIsFetchedNext : Prop :=
  ∀ (s t : State) (a : Byte) i rest, Fetches s (.push a) → step s = .next t → t.run = .running →
    s.pc.toNat ≤ 251 → (s.sp.toNat : Int) - 1 = s.pc.toNat + 2 →
    ∀ r : RegIx, r.val = a.toNat →
    decode [(s.writeSp (s.sp - 1#8)).readReg r, s.readMem (s.pc + 3#8), s.readMem (s.pc + 4#8)]
      = .instr i rest →
    step t = exec i t

/-- 43_stack.md, the laws of the pair (1) and (2): PUSH Rr then POP Rr, for every r, restores every
register, the stack pointer among them, and leaves the stored byte as the only change besides the PC. -/
def Obligations.PushThenPopRestores : Prop :=
  ∀ (s : State) (a : Byte) (r : RegIx), r.val = a.toNat → s.run = .running → s.pc.toNat ≤ 251 →
    s.sp ≠ 0#8 → s.readMem s.pc = opcodes.push → s.readMem (s.pc + 1#8) = a →
    s.readMem (s.pc + 2#8) = opcodes.pop → s.readMem (s.pc + 3#8) = a →
    s.sp - 1#8 ≠ s.pc + 2#8 → s.sp - 1#8 ≠ s.pc + 3#8 →
    ∃ t : State, Host.Core.run core 2 s = .next t ∧ t.regs = s.regs ∧ t.pc = s.pc + 4#8 ∧
      (∀ x, t.readMem x = if x = s.sp - 1#8 then (if r = 7 then s.sp - 1#8 else s.readReg r)
        else s.readMem x) ∧
      t.out = s.out ∧ SameStop s t

/-- 43_stack.md, the laws of the pair (3): along a run without an ordinary write to R7 and without a fault,
the stack pointer moves by one per stack operation; balanced, it returns to where it was, and from launch
to 0xF4. -/
def Obligations.BalancedRunRestoresStackPointer : Prop :=
  (∀ s d u, StackRun s d u → (u.sp.toNat : Int) = (s.sp.toNat : Int) + d) ∧
    ∀ image s u, launch image = some s → StackRun s 0 u → u.sp = 0xF4#8

/-- 44_call_ret.md, the laws of the pair (1) and (2): a RET reached from a CALL by a balanced run that does
not overwrite the return address goes to the address of CALL plus 2 and restores the stack pointer. -/
def Obligations.ReturnGoesAfterCall : Prop :=
  ∀ (s s1 u : State) (a : Byte), Fetches s (.call a) → step s = .next s1 → s1.run = .running →
    StackRun s1 0 u → u.readMem s1.sp = s1.readMem s1.sp → Fetches u .ret →
    ∃ t, step u = .next t ∧ t.run = .running ∧ t.pc.toNat = s.pc.toNat + 2 ∧ t.sp = s.sp

/-- 40_cycle_and_units.md §5: the decoder's control table, carried out by the datapath of the five blocks,
is the instruction rules: an equivalence of two descriptions of the whole instruction set. The table's length
column drives nothing in the datapath and has no part here. -/
def Obligations.ControlTableMatchesInstructionRules : Prop :=
  ∀ (oc : Opcodes) (ir a b : Byte) (s : State) i rest, decodeWith oc [ir, a, b] = .instr i rest →
    datapath (controlRow (decodeKind oc ir)) ir a b s = exec i s

/-- The model's own placing of a word for the host (log entry 7): the very next step runs the instruction
that the decoder reads from the word. -/
def Obligations.PlacedWordRunsNext : Prop :=
  ∀ (s : State) (nbits w : Nat) i, s.pc.toNat ≤ 253 → decodeTableWord nbits w = some i →
    step (s.withFetchWord nbits w) = exec i (s.withFetchWord nbits w)
end

