-- ==== Sys2Proof/Laws/State.lean ====
section
/-! SUPPORT. One lemma per field of the state and update of it, true by unfolding, and the register file's
read after write. -/

namespace Sys2Proof.Machine

variable (s : State) (r q : RegIx) (v a t : Byte) (k : Stop)

@[simp] theorem State.writeReg_pc : (s.writeReg r v).pc = s.pc := rfl
@[simp] theorem State.writeReg_mem : (s.writeReg r v).mem = s.mem := rfl
@[simp] theorem State.writeReg_run : (s.writeReg r v).run = s.run := rfl
@[simp] theorem State.writeReg_cause : (s.writeReg r v).cause = s.cause := rfl
@[simp] theorem State.writeReg_info : (s.writeReg r v).info = s.info := rfl
@[simp] theorem State.writeReg_out : (s.writeReg r v).out = s.out := rfl
@[simp] theorem State.writeReg_readMem : (s.writeReg r v).readMem a = s.readMem a := rfl

@[simp] theorem State.writeSp_pc : (s.writeSp v).pc = s.pc := rfl
@[simp] theorem State.writeSp_mem : (s.writeSp v).mem = s.mem := rfl
@[simp] theorem State.writeSp_run : (s.writeSp v).run = s.run := rfl
@[simp] theorem State.writeSp_cause : (s.writeSp v).cause = s.cause := rfl
@[simp] theorem State.writeSp_info : (s.writeSp v).info = s.info := rfl
@[simp] theorem State.writeSp_out : (s.writeSp v).out = s.out := rfl
@[simp] theorem State.writeSp_readMem : (s.writeSp v).readMem a = s.readMem a := rfl

@[simp] theorem State.writeMem_regs : (s.writeMem a v).regs = s.regs := rfl
@[simp] theorem State.writeMem_pc : (s.writeMem a v).pc = s.pc := rfl
@[simp] theorem State.writeMem_mem : (s.writeMem a v).mem = memWrite s.mem a v := rfl
@[simp] theorem State.writeMem_run : (s.writeMem a v).run = s.run := rfl
@[simp] theorem State.writeMem_cause : (s.writeMem a v).cause = s.cause := rfl
@[simp] theorem State.writeMem_info : (s.writeMem a v).info = s.info := rfl
@[simp] theorem State.writeMem_out : (s.writeMem a v).out = s.out := rfl
@[simp] theorem State.writeMem_readReg : (s.writeMem a v).readReg r = s.readReg r := rfl
@[simp] theorem State.writeMem_sp : (s.writeMem a v).sp = s.sp := rfl

@[simp] theorem State.setPc_regs : (s.setPc t).regs = s.regs := rfl
@[simp] theorem State.setPc_pc : (s.setPc t).pc = t := rfl
@[simp] theorem State.setPc_mem : (s.setPc t).mem = s.mem := rfl
@[simp] theorem State.setPc_run : (s.setPc t).run = s.run := rfl
@[simp] theorem State.setPc_cause : (s.setPc t).cause = s.cause := rfl
@[simp] theorem State.setPc_info : (s.setPc t).info = s.info := rfl
@[simp] theorem State.setPc_out : (s.setPc t).out = s.out := rfl
@[simp] theorem State.setPc_readReg : (s.setPc t).readReg r = s.readReg r := rfl
@[simp] theorem State.setPc_sp : (s.setPc t).sp = s.sp := rfl
@[simp] theorem State.setPc_readMem : (s.setPc t).readMem a = s.readMem a := rfl

@[simp] theorem State.emit_regs : (s.emit v).regs = s.regs := rfl
@[simp] theorem State.emit_pc : (s.emit v).pc = s.pc := rfl
@[simp] theorem State.emit_mem : (s.emit v).mem = s.mem := rfl
@[simp] theorem State.emit_run : (s.emit v).run = s.run := rfl
@[simp] theorem State.emit_cause : (s.emit v).cause = s.cause := rfl
@[simp] theorem State.emit_info : (s.emit v).info = s.info := rfl
@[simp] theorem State.emit_out : (s.emit v).out = s.out ++ [v] := rfl
@[simp] theorem State.emit_readReg : (s.emit v).readReg r = s.readReg r := rfl
@[simp] theorem State.emit_sp : (s.emit v).sp = s.sp := rfl
@[simp] theorem State.emit_readMem : (s.emit v).readMem a = s.readMem a := rfl

@[simp] theorem raise_regs : (raise k s).regs = s.regs := rfl
@[simp] theorem raise_pc : (raise k s).pc = s.pc := rfl
@[simp] theorem raise_mem : (raise k s).mem = s.mem := rfl
@[simp] theorem raise_run : (raise k s).run = .halted := rfl
@[simp] theorem raise_cause : (raise k s).cause = k.cause := rfl
@[simp] theorem raise_info : (raise k s).info = k.info := rfl
@[simp] theorem raise_out : (raise k s).out = s.out := rfl
@[simp] theorem raise_readReg : (raise k s).readReg r = s.readReg r := rfl
@[simp] theorem raise_sp : (raise k s).sp = s.sp := rfl
@[simp] theorem raise_readMem : (raise k s).readMem a = s.readMem a := rfl

/-! A register write commutes with the updates of other fields. -/

theorem State.setPc_writeReg : (s.setPc t).writeReg r v = (s.writeReg r v).setPc t := rfl
theorem State.emit_writeReg : (s.emit a).writeReg r v = (s.writeReg r v).emit a := rfl
theorem State.writeMem_writeReg (w : Byte) :
    (s.writeMem a w).writeReg r v = (s.writeReg r v).writeMem a w := rfl
theorem raise_writeReg : (raise k s).writeReg r v = raise k (s.writeReg r v) := rfl

/-- The register file: a read after a write (R77). -/
theorem State.readReg_writeReg :
    (s.writeReg r v).readReg q = if q = r then v else s.readReg q := by
  simp only [State.readReg, State.writeReg, Fin.getElem_fin, Vector.getElem_set, Fin.ext_iff]
  by_cases h : q.val = r.val
  · simp [h]
  · simp [h, Ne.symm h]

/-- The stack pointer after a register write: R7 is the one cell (R77). -/
theorem State.sp_writeReg : (s.writeReg r v).sp = if r = 7 then v else s.sp := by
  have h := s.readReg_writeReg r 7 v
  simp only [eq_comm (a := (7 : RegIx))] at h
  exact h

/-- A stack-pointer write is a write of R7 (R77). -/
theorem State.writeSp_eq : s.writeSp v = s.writeReg 7 v := rfl

@[simp] theorem State.sp_writeSp : (s.writeSp v).sp = v := by
  simp [State.writeSp, State.sp_writeReg, Config.spIx]

/-- A register after a stack-pointer write. -/
theorem State.readReg_writeSp :
    (s.writeSp v).readReg q = if q = 7 then v else s.readReg q :=
  s.readReg_writeReg 7 q v

/-- Two states are equal when every register and every other field are. -/
theorem State.ext_readReg {s u : State} (hr : ∀ r, s.readReg r = u.readReg r) (hp : s.pc = u.pc)
    (hm : s.mem = u.mem) (hn : s.run = u.run) (hc : s.cause = u.cause) (hi : s.info = u.info)
    (ho : s.out = u.out) : s = u := by
  obtain ⟨regs, pc, mem, run, cause, info, out⟩ := s
  obtain ⟨regs', pc', mem', run', cause', info', out'⟩ := u
  simp only at hp hm hn hc hi ho
  subst hp hm hn hc hi ho
  have : regs = regs' := by
    ext j hj
    have := hr ⟨j, hj⟩
    simp only [State.readReg, Fin.getElem_fin] at this
    rw [this]
  rw [this]

/-- Writes to two registers commute. -/
theorem State.writeReg_comm (w : Byte) (h : r ≠ q) :
    (s.writeReg r v).writeReg q w = (s.writeReg q w).writeReg r v := by
  refine State.ext_readReg (fun p => ?_) rfl rfl rfl rfl rfl rfl
  simp only [State.readReg_writeReg]
  split_ifs with hq hr
  · exact absurd (hr.symm.trans hq) h
  all_goals rfl

end Sys2Proof.Machine
end

