-- ==== Sys2Proof/Laws/Checks.lean ====
section
/-! SUPPORT. For each check of a meaning: when it goes on, with what, and when it stops; and one inversion
lemma that says everything it can do. -/

namespace Sys2Proof.Machine

variable {s t : State} {a : Byte} {n : Nat}

/-! ### A computed address -/

theorem withAddr_of_mem {x : Int} (h0 : 0 ≤ x) (h1 : x ≤ 255) (body : Byte → Result) :
    withAddr x s body = body (BitVec.ofInt 8 x) := if_pos ⟨h0, h1⟩

theorem withAddr_of_neg {x : Int} (h : x < 0) (body : Byte → Result) :
    withAddr x s body = .next (raise (.memAddr x) s) := if_neg (by omega)

theorem withAddr_of_gt {x : Int} (h : 255 < x) (body : Byte → Result) :
    withAddr x s body = .next (raise (.memAddr x) s) := if_neg (by omega)

/-- A checked address either reaches the rest of the rule or stops the cycle with the address recorded. -/
theorem withAddr_next {x : Int} {body : Byte → Result} (h : withAddr x s body = .next t) :
    (0 ≤ x ∧ x ≤ 255 ∧ body (BitVec.ofInt 8 x) = .next t) ∨
      ((x < 0 ∨ 255 < x) ∧ t = raise (.memAddr x) s) := by
  unfold withAddr at h
  split at h
  · next hx => exact .inl ⟨hx.1, hx.2, h⟩
  · next hx =>
    injection h with h
    exact .inr ⟨by omega, h.symm⟩

/-! ### The PC adder's uses (R80) -/

theorem withPcPlus_of_le (h : s.pc.toNat + n ≤ 255) (body : Byte → Result) :
    withPcPlus n s body = body (s.pc + BitVec.ofNat 8 n) := by
  unfold withPcPlus pcAdder
  rw [withAddr_of_mem (by omega) (by omega)]
  congr 1
  apply BitVec.eq_of_toNat_eq
  rw [BitVec.toNat_ofInt, BitVec.toNat_add, BitVec.toNat_ofNat]
  omega

theorem withPcPlus_of_gt (h : 255 < s.pc.toNat + n) (body : Byte → Result) :
    withPcPlus n s body = .next (raise (.memAddr (s.pc.toNat + n : Nat)) s) := by
  unfold withPcPlus pcAdder
  rw [withAddr_of_gt (by omega)]

/-- A PC sum either reaches the rest of the rule or stops the cycle. -/
theorem withPcPlus_next {body : Byte → Result} (h : withPcPlus n s body = .next t) :
    (s.pc.toNat + n ≤ 255 ∧ body (s.pc + BitVec.ofNat 8 n) = .next t) ∨
      (255 < s.pc.toNat + n ∧ t = raise (.memAddr (s.pc.toNat + n : Nat)) s) := by
  by_cases hn : s.pc.toNat + n ≤ 255
  · rw [withPcPlus_of_le hn] at h
    exact .inl ⟨hn, h⟩
  · rw [withPcPlus_of_gt (by omega)] at h
    injection h with h
    exact .inr ⟨by omega, h.symm⟩

/-! ### Operand fetch (R72) -/

theorem withFetch_of_le (h : s.pc.toNat ≤ 253) (body : Byte → Byte → Byte → Result) :
    withFetch s body =
      body (s.readMem s.pc) (s.readMem (s.pc + 1#8)) (s.readMem (s.pc + 2#8)) := by
  unfold withFetch
  rw [withPcPlus_of_le (by omega), withPcPlus_of_le (by omega)]

theorem withFetch_of_ge (h : 254 ≤ s.pc.toNat) (body : Byte → Byte → Byte → Result) :
    withFetch s body = .next (raise (.memAddr 256) s) := by
  have hlt := s.pc.isLt
  unfold withFetch
  by_cases h5 : s.pc.toNat = 255
  · rw [withPcPlus_of_gt (by omega), h5]; rfl
  · have h4 : s.pc.toNat = 254 := by omega
    rw [withPcPlus_of_le (by omega), withPcPlus_of_gt (by omega), h4]; rfl

/-! ### A register operand (R13, R54) -/

theorem withReg_of_lt (h : a.toNat < 8) (body : RegIx → Result) :
    withReg a s body = body ⟨a.toNat, h⟩ := dif_pos h

theorem withReg_of_ge (h : 8 ≤ a.toNat) (body : RegIx → Result) :
    withReg a s body = .next (raise (.regIndex a.toNat) s) := dif_neg (by omega)

/-- A register operand either reaches the rest of the rule or stops the cycle with the index recorded. -/
theorem withReg_next {body : RegIx → Result} (h : withReg a s body = .next t) :
    (∃ ha : a.toNat < 8, body ⟨a.toNat, ha⟩ = .next t) ∨
      (8 ≤ a.toNat ∧ t = raise (.regIndex a.toNat) s) := by
  by_cases ha : a.toNat < 8
  · rw [withReg_of_lt ha] at h
    exact .inl ⟨ha, h⟩
  · rw [withReg_of_ge (by omega)] at h
    injection h with h
    exact .inr ⟨by omega, h.symm⟩

/-! ### Stack-pointer control (R82, R83) -/

theorem withPush_of_ne (h : s.sp ≠ 0#8) (body : Byte → State → Result) :
    withPush s body = body (s.sp - 1#8) (s.writeSp (s.sp - 1#8)) := by
  have hp : 0 < s.sp.toNat := Nat.pos_of_ne_zero fun h0 => h (BitVec.eq_of_toNat_eq (by simpa using h0))
  have hlt := s.sp.isLt
  have he : BitVec.ofInt 8 ((s.sp.toNat : Int) - 1) = s.sp - 1#8 := by
    apply BitVec.eq_of_toNat_eq
    rw [BitVec.toNat_ofInt, BitVec.toNat_sub, BitVec.toNat_ofNat]
    omega
  unfold withPush
  rw [withAddr_of_mem (by omega) (by omega), he]

theorem withPush_of_zero (h : s.sp = 0#8) (body : Byte → State → Result) :
    withPush s body = .next (raise (.memAddr (-1)) s) := by
  unfold withPush
  rw [h, withAddr_of_neg (by decide)]
  rfl

/-- A push-type operation either has its new stack pointer or stops the cycle at address -1. -/
theorem withPush_next {body : Byte → State → Result} (h : withPush s body = .next t) :
    (s.sp ≠ 0#8 ∧ body (s.sp - 1#8) (s.writeSp (s.sp - 1#8)) = .next t) ∨
      (s.sp = 0#8 ∧ t = raise (.memAddr (-1)) s) := by
  by_cases hz : s.sp = 0#8
  · rw [withPush_of_zero hz] at h
    injection h with h
    exact .inr ⟨hz, h.symm⟩
  · rw [withPush_of_ne hz] at h
    exact .inl ⟨hz, h⟩

theorem withPopped_of_ne {s1 : State} (h : s1.sp ≠ 255#8) (body : State → Result) :
    withPopped s s1 body = body (s1.writeSp (s1.sp + 1#8)) := by
  have hlt := s1.sp.isLt
  have hp : s1.sp.toNat ≠ 255 := fun h5 => h (BitVec.eq_of_toNat_eq (by simpa using h5))
  have he : BitVec.ofInt 8 ((s1.sp.toNat : Int) + 1) = s1.sp + 1#8 := by
    apply BitVec.eq_of_toNat_eq
    rw [BitVec.toNat_ofInt, BitVec.toNat_add, BitVec.toNat_ofNat]
    omega
  unfold withPopped
  rw [withAddr_of_mem (by omega) (by omega), he]

theorem withPopped_of_max {s1 : State} (h : s1.sp = 255#8) (body : State → Result) :
    withPopped s s1 body = .next (raise (.memAddr 256) s) := by
  unfold withPopped
  rw [h, withAddr_of_gt (by decide)]
  rfl

/-- A pop-type operation either has its new stack pointer or stops the cycle at address 256. -/
theorem withPopped_next {s1 : State} {body : State → Result} (h : withPopped s s1 body = .next t) :
    (s1.sp ≠ 255#8 ∧ body (s1.writeSp (s1.sp + 1#8)) = .next t) ∨
      (s1.sp = 255#8 ∧ t = raise (.memAddr 256) s) := by
  by_cases hz : s1.sp = 255#8
  · rw [withPopped_of_max hz] at h
    injection h with h
    exact .inr ⟨hz, h.symm⟩
  · rw [withPopped_of_ne hz] at h
    exact .inl ⟨hz, h⟩

/-! ### The ALU (R78) -/

theorem alu_add (p q : Byte) : alu .add p q = some (p + q) := by
  refine congrArg some (BitVec.eq_of_toNat_eq ?_)
  simp

theorem alu_mul (p q : Byte) : alu .mul p q = some (p * q) := by
  refine congrArg some (BitVec.eq_of_toNat_eq ?_)
  simp

theorem withAlu_add (p q : Byte) (body : Byte → Result) : withAlu .add p q s body = body (p + q) := by
  simp [withAlu, alu_add]

theorem withAlu_mul (p q : Byte) (body : Byte → Result) : withAlu .mul p q s body = body (p * q) := by
  simp [withAlu, alu_mul]

end Sys2Proof.Machine
end

