-- ==== Sys2Proof/Laws/Memory.lean ====
section
/-! SUPPORT. Memory: a read after a store, and that every operation keeps the canonical form. -/

namespace Sys2Proof.Machine

theorem memLookup_memErase (m : Memory) (a b : Nat) :
    memLookup (memErase m a) b = if b = a then 0#8 else memLookup m b := by
  induction m with
  | nil => simp [memErase, memLookup]
  | cons c m ih =>
    obtain ⟨x, w⟩ := c
    simp only [memErase] at ih ⊢
    by_cases hx : x = a
    · subst hx
      simp only [List.filter_cons, bne_self_eq_false, Bool.false_eq_true, if_false, ih, memLookup]
      by_cases hb : b = x <;> simp [hb, eq_comm]
    · simp only [List.filter_cons, bne_iff_ne, ne_eq, hx, not_false_iff, if_true, memLookup, ih]
      by_cases hb : b = a
      · subst hb; simp [hx]
      · simp [hb]

theorem memLookup_memInsert {m : Memory} {a : Nat} (hm : ∀ c ∈ m, c.1 ≠ a) (b : Nat) (v : Byte) :
    memLookup (memInsert m a v) b = if b = a then v else memLookup m b := by
  induction m with
  | nil =>
    by_cases hb : b = a
    · simp [memInsert, memLookup, hb]
    · simp [memInsert, memLookup, hb, Ne.symm hb]
  | cons c m ih =>
    obtain ⟨x, w⟩ := c
    have hx : x ≠ a := hm (x, w) (by simp)
    have ih := ih fun c hc => hm c (List.mem_cons_of_mem _ hc)
    unfold memInsert
    split
    · by_cases hb : b = a
      · subst hb; simp [memLookup]
      · simp [memLookup, hb, Ne.symm hb]
    · simp only [memLookup, ih]
      by_cases hb : b = a
      · subst hb; simp [hx]
      · simp [hb]

/-- A read after a store: the byte stored, and every other place as before (R31, R32). -/
theorem memLookup_memStore (m : Memory) (a b : Nat) (v : Byte) :
    memLookup (memStore m a v) b = if b = a then v else memLookup m b := by
  unfold memStore
  split
  · next h => subst h; exact memLookup_memErase m a b
  · rw [memLookup_memInsert (by simp [memErase]), memLookup_memErase]
    by_cases hb : b = a <;> simp [hb]

theorem Memory.wfFrom_mono {m : Memory} {lo lo' : Nat} (h : lo' ≤ lo) (hm : Memory.wfFrom lo m = true) :
    Memory.wfFrom lo' m = true := by
  cases m with
  | nil => rfl
  | cons c m =>
    obtain ⟨x, w⟩ := c
    simp only [Memory.wfFrom, Bool.and_eq_true, decide_eq_true_eq] at hm ⊢
    exact ⟨⟨⟨by omega, hm.1.1.2⟩, hm.1.2⟩, hm.2⟩

theorem Memory.wfFrom_memErase {m : Memory} {lo : Nat} (a : Nat) (hm : Memory.wfFrom lo m = true) :
    Memory.wfFrom lo (memErase m a) = true := by
  induction m generalizing lo with
  | nil => rfl
  | cons c m ih =>
    obtain ⟨x, w⟩ := c
    simp only [Memory.wfFrom, Bool.and_eq_true, decide_eq_true_eq] at hm
    simp only [memErase, List.filter_cons] at ih ⊢
    split
    · simp only [Memory.wfFrom, Bool.and_eq_true, decide_eq_true_eq]
      exact ⟨hm.1, ih hm.2⟩
    · exact ih (Memory.wfFrom_mono (by omega) hm.2)

theorem Memory.wfFrom_memInsert {m : Memory} {lo a : Nat} {v : Byte} (hv : v ≠ 0#8) (hlo : lo ≤ a)
    (ha : a < Config.memSize) (hne : ∀ c ∈ m, c.1 ≠ a) (hm : Memory.wfFrom lo m = true) :
    Memory.wfFrom lo (memInsert m a v) = true := by
  induction m generalizing lo with
  | nil => simp [memInsert, Memory.wfFrom, hv, hlo, ha]
  | cons c m ih =>
    obtain ⟨x, w⟩ := c
    have hx : x ≠ a := hne (x, w) (by simp)
    simp only [Memory.wfFrom, Bool.and_eq_true, decide_eq_true_eq] at hm
    unfold memInsert
    split
    · simp only [Memory.wfFrom, Bool.and_eq_true, decide_eq_true_eq]
      exact ⟨⟨⟨hlo, ha⟩, hv⟩, ⟨⟨by omega, hm.1.1.2⟩, hm.1.2⟩, hm.2⟩
    · simp only [Memory.wfFrom, Bool.and_eq_true, decide_eq_true_eq]
      exact ⟨hm.1, ih (by omega) (fun c hc => hne c (List.mem_cons_of_mem _ hc)) hm.2⟩

/-- A store below `memSize` keeps the canonical form. -/
theorem Memory.wf_memStore {m : Memory} {a : Nat} {v : Byte} (ha : a < Config.memSize)
    (hm : m.wf = true) : Memory.wf (memStore m a v) = true := by
  unfold memStore Memory.wf
  split
  · exact Memory.wfFrom_memErase a hm
  · next hv =>
    exact Memory.wfFrom_memInsert hv (Nat.zero_le a) ha (by simp [memErase])
      (Memory.wfFrom_memErase a hm)

/-- `MemWrite` keeps the canonical form. -/
theorem Memory.wf_memWrite {m : Memory} {a v : Byte} (hm : m.wf = true) :
    Memory.wf (memWrite m a v) = true :=
  Memory.wf_memStore a.isLt hm

/-- Placing bytes keeps the canonical form. -/
theorem Memory.wf_memPlace {m : Memory} {a : Nat} {vs : List Byte} (hm : m.wf = true) :
    Memory.wf (memPlace m a vs) = true := by
  induction vs generalizing m a with
  | nil => exact hm
  | cons v vs ih =>
    apply ih
    split
    · next h => exact Memory.wf_memStore h hm
    · exact hm

/-- What placed bytes read as. -/
theorem memLookup_memPlace (m : Memory) (a b : Nat) (vs : List Byte) (hb : b < Config.memSize) :
    memLookup (memPlace m a vs) b = if a ≤ b ∧ b < a + vs.length then vs.getD (b - a) 0#8
      else memLookup m b := by
  induction vs generalizing m a with
  | nil =>
    simp [memPlace]
  | cons v vs ih =>
    simp only [memPlace, ih, List.length_cons]
    by_cases hab : b = a
    · subst hab
      have h1 : ¬ (b + 1 ≤ b ∧ b < b + 1 + vs.length) := by omega
      have h2 : b ≤ b ∧ b < b + (vs.length + 1) := by omega
      rw [if_neg h1, if_pos h2, if_pos hb, memLookup_memStore]
      simp
    · have h3 : memLookup (if a < Config.memSize then memStore m a v else m) b = memLookup m b := by
        split
        · rw [memLookup_memStore, if_neg hab]
        · rfl
      rw [h3]
      by_cases h : a + 1 ≤ b ∧ b < a + 1 + vs.length
      · have h4 : a ≤ b ∧ b < a + (vs.length + 1) := by omega
        rw [if_pos h, if_pos h4]
        have h5 : b - a = (b - (a + 1)) + 1 := by omega
        rw [h5, List.getD_cons_succ]
      · have h4 : ¬ (a ≤ b ∧ b < a + (vs.length + 1)) := by omega
        rw [if_neg h, if_neg h4]

theorem State.reset_mem_wf : State.reset.mem.wf = true := rfl

end Sys2Proof.Machine
end

