-- ==== Sys2Proof/Laws/Exec.lean ====
section
/-! SUPPORT. Each arm of `exec` as its checks and its writes, for the inversion lemmas of Checks.lean, and
the byte-level reads after the state's own stores. -/

namespace Sys2Proof.Machine

variable (s : State) (a b x y v : Byte)

theorem exec_ldi : exec (.ldi a v) s =
    withReg a s fun r => withPcPlus 3 s fun next => .next ((s.writeReg r v).setPc next) := rfl

theorem exec_prn : exec (.prn a) s =
    withReg a s fun r => withPcPlus 2 s fun next => .next ((s.emit (s.readReg r)).setPc next) := rfl

theorem exec_add : exec (.add a b) s =
    withReg a s fun ra => withReg b s fun rb => withPcPlus 3 s fun next =>
      .next ((s.writeReg ra (s.readReg ra + s.readReg rb)).setPc next) := by
  simp only [exec, execAdd, aluInPlace, withAlu_add]

theorem exec_mul : exec (.mul a b) s =
    withReg a s fun ra => withReg b s fun rb => withPcPlus 3 s fun next =>
      .next ((s.writeReg ra (s.readReg ra * s.readReg rb)).setPc next) := by
  simp only [exec, execMul, aluInPlace, withAlu_mul]

theorem exec_push : exec (.push a) s =
    withReg a s fun r => withPush s fun sp s1 => withPcPlus 2 s fun next =>
      .next ((s1.writeMem sp (s1.readReg r)).setPc next) := rfl

theorem exec_pop : exec (.pop a) s =
    withReg a s fun r => withPopped s (s.writeReg r (s.readMem s.sp)) fun s2 =>
      withPcPlus 2 s fun next => .next (s2.setPc next) := rfl

theorem exec_call : exec (.call a) s =
    withReg a s fun r => withPush s fun sp s1 => withPcPlus 2 s fun ret =>
      .next ((s1.writeMem sp ret).setPc (s1.readReg r)) := rfl

theorem exec_ret : exec .ret s =
    withPopped s s fun s2 => .next (s2.setPc (s.readMem s.sp)) := rfl

theorem exec_hlt : exec .hlt s = .next (raise .hlt s) := rfl

theorem exec_unrecognized (op : Byte) :
    exec (.unrecognized op) s = .next (raise (.unrecognized op) s) := rfl

/-- A byte of the memory after a store of the state's own. -/
theorem memRead_memWrite (m : Memory) :
    memRead (memWrite m x v) y = if y = x then v else memRead m y := by
  simp only [memRead, memWrite, memLookup_memStore, BitVec.toNat_inj]

end Sys2Proof.Machine
end

