-- ==== Sys2Proof/Laws/Effect.lean ====
section
/-! SUPPORT. Everything an instruction and a step can do, said once: a statement about every step is a case
analysis of `Effect`. -/

namespace Sys2Proof.Machine

/-- Each way an instruction ends, with the conditions under which it does. -/
inductive Effect : Instr → State → State → Prop where
  | regIndex {i s} (n : Nat) (h : 8 ≤ n ∧ n ≤ 255) : Effect i s (raise (.regIndex n) s)
  | below {i s} : Effect i s (raise (.memAddr (-1)) s)
  | above {i s} (n : Int) (h : s.pc.toNat ≤ 253 → n = 256) : Effect i s (raise (.memAddr n) s)
  | ldi {s a v} (ha : a.toNat < 8) (hp : s.pc.toNat ≤ 252) :
      Effect (.ldi a v) s ((s.writeReg ⟨a.toNat, ha⟩ v).setPc (s.pc + 3#8))
  | prn {s a} (ha : a.toNat < 8) (hp : s.pc.toNat ≤ 253) :
      Effect (.prn a) s ((s.emit (s.readReg ⟨a.toNat, ha⟩)).setPc (s.pc + 2#8))
  | add {s a b} (ha : a.toNat < 8) (hb : b.toNat < 8) (hp : s.pc.toNat ≤ 252) :
      Effect (.add a b) s
        ((s.writeReg ⟨a.toNat, ha⟩ (s.readReg ⟨a.toNat, ha⟩ + s.readReg ⟨b.toNat, hb⟩)).setPc (s.pc + 3#8))
  | mul {s a b} (ha : a.toNat < 8) (hb : b.toNat < 8) (hp : s.pc.toNat ≤ 252) :
      Effect (.mul a b) s
        ((s.writeReg ⟨a.toNat, ha⟩ (s.readReg ⟨a.toNat, ha⟩ * s.readReg ⟨b.toNat, hb⟩)).setPc (s.pc + 3#8))
  | push {s a} (ha : a.toNat < 8) (hs : s.sp ≠ 0#8) (hp : s.pc.toNat ≤ 253) :
      Effect (.push a) s
        (((s.writeSp (s.sp - 1#8)).writeMem (s.sp - 1#8)
          ((s.writeSp (s.sp - 1#8)).readReg ⟨a.toNat, ha⟩)).setPc (s.pc + 2#8))
  | pop {s a} (ha : a.toNat < 8) (hs : (s.writeReg ⟨a.toNat, ha⟩ (s.readMem s.sp)).sp ≠ 255#8)
      (hp : s.pc.toNat ≤ 253) :
      Effect (.pop a) s
        (((s.writeReg ⟨a.toNat, ha⟩ (s.readMem s.sp)).writeSp
          ((s.writeReg ⟨a.toNat, ha⟩ (s.readMem s.sp)).sp + 1#8)).setPc (s.pc + 2#8))
  | call {s a} (ha : a.toNat < 8) (hs : s.sp ≠ 0#8) (hp : s.pc.toNat ≤ 253) :
      Effect (.call a) s
        (((s.writeSp (s.sp - 1#8)).writeMem (s.sp - 1#8) (s.pc + 2#8)).setPc
          ((s.writeSp (s.sp - 1#8)).readReg ⟨a.toNat, ha⟩))
  | ret {s} (hs : s.sp ≠ 255#8) : Effect .ret s ((s.writeSp (s.sp + 1#8)).setPc (s.readMem s.sp))
  | hlt {s} : Effect .hlt s (raise .hlt s)
  | unrecognized {s op} : Effect (.unrecognized op) s (raise (.unrecognized op) s)

/-- A register operand's two outcomes, in terms of `Effect`. -/
theorem Effect.of_withReg {i : Instr} {s t : State} {a : Byte} {body : RegIx → Result}
    (h : withReg a s body = .next t)
    (hb : ∀ ha : a.toNat < 8, body ⟨a.toNat, ha⟩ = .next t → Effect i s t) : Effect i s t := by
  have hlt := a.isLt
  obtain ⟨ha, h⟩ | ⟨ha, rfl⟩ := withReg_next h
  · exact hb ha h
  · exact .regIndex _ ⟨ha, by omega⟩

/-- A PC sum's two outcomes; `n ≤ 3` is what every rule adds. -/
theorem Effect.of_withPcPlus {i : Instr} {s t : State} {n : Nat} {body : Byte → Result}
    (h : withPcPlus n s body = .next t) (hn : n ≤ 3)
    (hb : s.pc.toNat + n ≤ 255 → body (s.pc + BitVec.ofNat 8 n) = .next t → Effect i s t) :
    Effect i s t := by
  obtain ⟨hp, h⟩ | ⟨hp, rfl⟩ := withPcPlus_next h
  · exact hb hp h
  · exact .above _ fun _ => by omega

/-- A push-type operation's two outcomes. -/
theorem Effect.of_withPush {i : Instr} {s t : State} {body : Byte → State → Result}
    (h : withPush s body = .next t)
    (hb : s.sp ≠ 0#8 → body (s.sp - 1#8) (s.writeSp (s.sp - 1#8)) = .next t → Effect i s t) :
    Effect i s t := by
  obtain ⟨hs, h⟩ | ⟨-, rfl⟩ := withPush_next h
  · exact hb hs h
  · exact .below

/-- A pop-type operation's two outcomes. -/
theorem Effect.of_withPopped {i : Instr} {s s1 t : State} {body : State → Result}
    (h : withPopped s s1 body = .next t)
    (hb : s1.sp ≠ 255#8 → body (s1.writeSp (s1.sp + 1#8)) = .next t → Effect i s t) : Effect i s t := by
  obtain ⟨hs, h⟩ | ⟨-, rfl⟩ := withPopped_next h
  · exact hb hs h
  · exact .above _ fun _ => rfl

/-- Everything an instruction can do. -/
theorem exec_effect {i : Instr} {s t : State} (h : exec i s = .next t) : Effect i s t := by
  cases i with
  | ldi a v =>
    rw [exec_ldi] at h
    refine .of_withReg h fun ha h => .of_withPcPlus h (by decide) fun hp h => ?_
    cases h
    exact .ldi ha (by omega)
  | prn a =>
    rw [exec_prn] at h
    refine .of_withReg h fun ha h => .of_withPcPlus h (by decide) fun hp h => ?_
    cases h
    exact .prn ha (by omega)
  | add a b =>
    rw [exec_add] at h
    refine .of_withReg h fun ha h => .of_withReg h fun hb h => .of_withPcPlus h (by decide) fun hp h => ?_
    cases h
    exact .add ha hb (by omega)
  | mul a b =>
    rw [exec_mul] at h
    refine .of_withReg h fun ha h => .of_withReg h fun hb h => .of_withPcPlus h (by decide) fun hp h => ?_
    cases h
    exact .mul ha hb (by omega)
  | push a =>
    rw [exec_push] at h
    refine .of_withReg h fun ha h => .of_withPush h fun hs h => .of_withPcPlus h (by decide) fun hp h => ?_
    cases h
    exact .push ha hs (by omega)
  | pop a =>
    rw [exec_pop] at h
    refine .of_withReg h fun ha h => .of_withPopped h fun hs h => .of_withPcPlus h (by decide) fun hp h => ?_
    cases h
    exact .pop ha hs (by omega)
  | call a =>
    rw [exec_call] at h
    refine .of_withReg h fun ha h => .of_withPush h fun hs h => .of_withPcPlus h (by decide) fun hp h => ?_
    cases h
    exact .call ha hs (by omega)
  | ret =>
    rw [exec_ret] at h
    refine .of_withPopped h fun hs h => ?_
    cases h
    exact .ret hs
  | hlt => cases h; exact .hlt
  | unrecognized op => cases h; exact .unrecognized

/-- Three bytes are always decoded to an instruction of the opcode byte's kind. -/
theorem decodeWith_three (oc : Opcodes) (ir a b : Byte) :
    ∃ i rest, decodeWith oc [ir, a, b] = .instr i rest ∧ i.kind = decodeKind oc ir := by
  cases h : decodeKind oc ir <;> simp only [decodeWith, h] <;> exact ⟨_, _, rfl, rfl⟩

/-- Everything a step can do: nothing once `Halted`, the operand fetch's stop, or an instruction. -/
theorem step_cases {s t : State} (h : step s = .next t) :
    (s.run = .halted ∧ t = s) ∨
      (s.run = .running ∧ 254 ≤ s.pc.toNat ∧ t = raise (.memAddr 256) s) ∨
      ∃ i, Fetches s i ∧ Effect i s t := by
  unfold step cycleWith at h
  cases hr : s.run with
  | halted =>
    rw [hr] at h
    cases h
    exact .inl ⟨rfl, rfl⟩
  | running =>
    rw [hr] at h
    by_cases hp : s.pc.toNat ≤ 253
    · obtain ⟨i, rest, hd, -⟩ :=
        decodeWith_three opcodes (s.readMem s.pc) (s.readMem (s.pc + 1#8)) (s.readMem (s.pc + 2#8))
      simp only [withFetch_of_le hp, hd] at h
      exact .inr (.inr ⟨i, ⟨hr, hp, rest, hd⟩, exec_effect h⟩)
    · simp only [withFetch_of_ge (show 254 ≤ s.pc.toNat by omega)] at h
      cases h
      exact .inr (.inl ⟨rfl, by omega, rfl⟩)

end Sys2Proof.Machine
end

