-- ==== Sys2Proof/Laws/PerInstr.lean ====
section
/-! SUPPORT. Per-instruction statements about the instructions as syntax. -/

namespace Sys2Proof.Laws

/-- The encoding of an instruction has the length that the decoder's table gives its kind (R53, R81), and
one byte where the table gives none. -/
def EncodedLength.Statement (i : Instr) : Prop :=
  ∀ oc, (encodeWith oc i).length = ((Machine.controlRow i.kind).length).getD 1

theorem EncodedLength.ldi (a imm : Byte) : EncodedLength.Statement (.ldi a imm) := fun _ => rfl
theorem EncodedLength.prn (a : Byte) : EncodedLength.Statement (.prn a) := fun _ => rfl
theorem EncodedLength.add (a b : Byte) : EncodedLength.Statement (.add a b) := fun _ => rfl
theorem EncodedLength.mul (a b : Byte) : EncodedLength.Statement (.mul a b) := fun _ => rfl
theorem EncodedLength.push (a : Byte) : EncodedLength.Statement (.push a) := fun _ => rfl
theorem EncodedLength.pop (a : Byte) : EncodedLength.Statement (.pop a) := fun _ => rfl
theorem EncodedLength.call (a : Byte) : EncodedLength.Statement (.call a) := fun _ => rfl
theorem EncodedLength.ret : EncodedLength.Statement .ret := fun _ => rfl
theorem EncodedLength.hlt : EncodedLength.Statement .hlt := fun _ => rfl
theorem EncodedLength.unrecognized (op : Byte) : EncodedLength.Statement (.unrecognized op) :=
  fun _ => rfl

end Sys2Proof.Laws
end

