-- ==== Sys2Proof/Tests/Slice0.lean ====
section
/-! SUPPORT. Tests of single steps against `95_test_vectors.md`, decoding tests from the formats of
`30_encoding.md`, the well-formedness smoke test, and a witness for the hypotheses of every statement. -/

namespace Sys2Proof.Tests

open Sys2Proof Sys2Proof.Machine

/-- The reset state with the PC at `pc` and bytes placed there. -/
def boot (pc : Byte) (bytes : List Byte) : State :=
  { State.reset with pc := pc, mem := memPlace [] pc.toNat bytes }

/-- The result is a next state that passes a check. -/
def nextIs (r : Result) (p : State → Bool) : Bool :=
  match r with
  | .next t => p t
  | .fault _ | .refused _ => false

/-- The result is the stop `k`, everything but the stop's own fields as in `s`. -/
def stopIs (r : Result) (k : Stop) (s : State) : Bool := nextIs r fun t => decide (t = raise k s)

/-- The state after a step. -/
def after (s : State) : State :=
  match step s with
  | .next t => t
  | .fault _ | .refused _ => s

theorem step_eq_after {s : State} (h : nextIs (step s) (fun _ => true) = true) :
    step s = .next (after s) := by
  unfold after
  cases hs : step s with
  | next t => rfl
  | fault r => rw [hs] at h; cases h
  | refused r => rw [hs] at h; cases h

/-- `Fetches` as a computation. -/
def fetchesB (s : State) (i : Instr) : Bool :=
  decide (s.run = .running) && decide (s.pc.toNat ≤ 253) &&
    match decode [s.readMem s.pc, s.readMem (s.pc + 1#8), s.readMem (s.pc + 2#8)] with
    | .instr j _ => decide (j = i)
    | .noOpcode | .missingOperand _ => false

theorem fetches_of {s : State} {i : Instr} (h : fetchesB s i = true) : Fetches s i := by
  simp only [fetchesB, Bool.and_eq_true, decide_eq_true_eq] at h
  refine ⟨h.1.1, h.1.2, ?_⟩
  revert h
  cases decode [s.readMem s.pc, s.readMem (s.pc + 1#8), s.readMem (s.pc + 2#8)] with
  | instr j rest => intro h; exact ⟨rest, by rw [of_decide_eq_true h.2]⟩
  | noOpcode => intro h; cases h.2
  | missingOperand op => intro h; cases h.2

/-! ### Well-formedness smoke test: the one check -/

/-- R57: a term `unrecognized` of a byte that is an opcode is ill formed, for each of the nine. -/
theorem test_wf_refuses_opcode_as_unrecognized :
    (opcodes.toList.all fun op => !(Instr.unrecognized op).wf) = true := by decide

/-- R57: 0x00 and 0xFF are unrecognized; R54: a register operand of 9 is well formed. -/
theorem test_wf_accepts :
    ((Instr.unrecognized 0#8).wf && (Instr.unrecognized 0xFF#8).wf && (Instr.push 9#8).wf) = true := by
  decide

/-- R62: equal numbers, or 0xFF among them, are not valid opcode parameters. -/
theorem test_opcodes_invalid :
    ¬ ({ opcodes with ret := 0x01#8 } : Opcodes).Valid ∧ ¬ ({ opcodes with ret := 0xFF#8 } : Opcodes).Valid := by
  decide

/-! ### Decoding, every constructor, from words written out by R51 and R53 -/

/-- LDI R3,255: 0x82 03 FF. -/
theorem test_decode_ldi : decode [0b10000010#8, 0b00000011#8, 0b11111111#8] = .instr (.ldi 3#8 255#8) [] := by decide
/-- PRN R7: 0x47 07. -/
theorem test_decode_prn : decode [0b01000111#8, 0b00000111#8] = .instr (.prn 7#8) [] := by decide
/-- ADD R2,R1: 0xA0 02 01. -/
theorem test_decode_add : decode [0b10100000#8, 0b00000010#8, 0b00000001#8] = .instr (.add 2#8 1#8) [] := by decide
/-- MUL R0,R1: 0xA2 00 01. -/
theorem test_decode_mul : decode [0b10100010#8, 0b00000000#8, 0b00000001#8] = .instr (.mul 0#8 1#8) [] := by decide
/-- PUSH 9 (out of range, R54): 0x45 09. -/
theorem test_decode_push : decode [0b01000101#8, 0b00001001#8] = .instr (.push 9#8) [] := by decide
/-- POP R1: 0x46 01. -/
theorem test_decode_pop : decode [0b01000110#8, 0b00000001#8] = .instr (.pop 1#8) [] := by decide
/-- CALL R6: 0x50 06. -/
theorem test_decode_call : decode [0b01010000#8, 0b00000110#8] = .instr (.call 6#8) [] := by decide
/-- RET: 0x11, the bytes after it left over (R59). -/
theorem test_decode_ret : decode [0b00010001#8, 0b01000101#8] = .instr .ret [0b01000101#8] := by decide
/-- HLT: 0x01. -/
theorem test_decode_hlt : decode [0b00000001#8] = .instr .hlt [] := by decide
/-- F6: 0xA1 is unrecognized here. -/
theorem test_decode_unrecognized : decode [0b10100001#8] = .instr (.unrecognized 0xA1#8) [] := by decide
/-- Refusals by name: no byte, and operands cut off. -/
theorem test_decode_refuses : decode [] = .noOpcode ∧ decode [0x82#8, 0#8] = .missingOperand 0x82#8 := by decide

/-- The table's words: bit 0 is the opcode byte's least significant bit. -/
theorem test_table_words :
    decodeTableWord 24 0xFF0382 = some (.ldi 3#8 255#8) ∧ decodeTableWord 16 0x0747 = some (.prn 7#8) ∧
    decodeTableWord 24 0x0102A0 = some (.add 2#8 1#8) ∧ decodeTableWord 24 0x0100A2 = some (.mul 0#8 1#8) ∧
    decodeTableWord 8 0x45 = some (.push 0#8) ∧ decodeTableWord 16 0x0146 = some (.pop 1#8) ∧
    decodeTableWord 16 0x0650 = some (.call 6#8) ∧ decodeTableWord 8 0x11 = some .ret ∧
    decodeTableWord 8 0x01 = some .hlt ∧ decodeTableWord 0 0 = some (.unrecognized 0#8) := by decide

/-- A placed word is what the first step after reset runs: PUSH R7 (U2). -/
theorem test_fetch_word :
    nextIs (step (State.reset.withFetchWord 16 0x0745)) (fun t => t.sp == 0xF3#8 && t.pc == 2#8) = true := by
  decide

/-! ### Single steps, from the tables of 95_test_vectors.md -/

/-- L2: LDI R7,0x80 moves the stack. -/
theorem test_ldi_sp :
    nextIs (step (boot 0x10#8 [0x82#8, 7#8, 0x80#8])) (fun t => t.sp == 0x80#8 && t.pc == 0x13#8) = true := by
  decide
/-- L5 and L6: at 253 the next PC stops it, and a bad index is reported before that. -/
theorem test_ldi_stops :
    (stopIs (step (boot 253#8 [0x82#8, 0#8, 1#8])) (.memAddr 256) (boot 253#8 [0x82#8, 0#8, 1#8]) &&
      stopIs (step (boot 253#8 [0x82#8, 9#8, 1#8])) (.regIndex 9) (boot 253#8 [0x82#8, 9#8, 1#8])) = true := by
  decide
/-- N1: PRN R7 emits 244. -/
theorem test_prn_sp :
    nextIs (step (boot 0#8 [0x47#8, 7#8])) (fun t => t.out == [244#8] && t.pc == 2#8) = true := by decide
/-- N3: PRN at 253 completes. -/
theorem test_prn_top :
    nextIs (step ((boot 253#8 [0x47#8, 0#8]).writeReg 0 5#8))
      (fun t => t.out == [5#8] && t.pc == 0xFF#8) = true := by decide
/-- A8: ADD R2,R2 with 129 gives 2. -/
theorem test_add_same_register :
    nextIs (step ((boot 0#8 [0xA0#8, 2#8, 2#8]).writeReg 2 129#8))
      (fun t => t.readReg 2 == 2#8 && t.pc == 3#8) = true := by decide
/-- A10: ADD R1,R7 reads the stack pointer and leaves it. -/
theorem test_add_reads_sp :
    nextIs (step ((boot 0#8 [0xA0#8, 1#8, 7#8]).writeReg 1 0x10#8))
      (fun t => t.readReg 1 == 0x04#8 && t.sp == 0xF4#8) = true := by decide
/-- M10: MUL R2,R2 with 200 gives 64. -/
theorem test_mul_square_wraps :
    nextIs (step ((boot 0#8 [0xA2#8, 2#8, 2#8]).writeReg 2 200#8)) (fun t => t.readReg 2 == 64#8) = true := by
  decide
/-- M7: 15 * 17 = 255. -/
theorem test_mul_max :
    nextIs (step (((boot 0#8 [0xA2#8, 0#8, 1#8]).writeReg 0 15#8).writeReg 1 17#8))
      (fun t => t.readReg 0 == 255#8 && t.readReg 1 == 17#8) = true := by decide
/-- U2: PUSH R7 stores the decremented stack pointer. -/
theorem test_push_sp :
    nextIs (step (boot 6#8 [0x45#8, 7#8]))
      (fun t => t.sp == 0xF3#8 && t.readMem 0xF3#8 == 0xF3#8 && t.pc == 8#8) = true := by decide
/-- U5: PUSH 9 with SP 0 reports the index. -/
theorem test_push_priority :
    stopIs (step ((boot 6#8 [0x45#8, 9#8]).writeSp 0#8)) (.regIndex 9)
      ((boot 6#8 [0x45#8, 9#8]).writeSp 0#8) = true := by decide
/-- O3: POP R7 leaves the loaded value plus 1. -/
theorem test_pop_sp :
    nextIs (step (((boot 10#8 [0x46#8, 7#8]).writeSp 0xF3#8).writeMem 0xF3#8 0x10#8))
      (fun t => t.sp == 0x11#8 && t.pc == 12#8) = true := by decide
/-- O5: POP with SP 254 reaches 255. -/
theorem test_pop_top :
    nextIs (step (((boot 10#8 [0x46#8, 0#8]).writeSp 0xFE#8).writeMem 0xFE#8 0x33#8))
      (fun t => t.readReg 0 == 0x33#8 && t.sp == 0xFF#8) = true := by decide
/-- C2: CALL R7 jumps to the decremented stack pointer. -/
theorem test_call_sp :
    nextIs (step (boot 0x10#8 [0x50#8, 7#8]))
      (fun t => t.sp == 0xF3#8 && t.readMem 0xF3#8 == 0x12#8 && t.pc == 0xF3#8) = true := by decide
/-- C5: CALL at 253 stores the return address 255. -/
theorem test_call_top :
    nextIs (step ((boot 0xFD#8 [0x50#8, 1#8]).writeReg 1 0x20#8))
      (fun t => t.readMem 0xF3#8 == 0xFF#8 && t.pc == 0x20#8) = true := by decide
/-- F7: RET at 253. -/
theorem test_ret_top :
    nextIs (step (((boot 0xFD#8 [0x11#8]).writeSp 0xF3#8).writeMem 0xF3#8 8#8))
      (fun t => t.pc == 8#8 && t.sp == 0xF4#8) = true := by decide
/-- T4: RET with SP 255. -/
theorem test_ret_stop :
    stopIs (step ((boot 0x20#8 [0x11#8]).writeSp 0xFF#8)) (.memAddr 256)
      ((boot 0x20#8 [0x11#8]).writeSp 0xFF#8) = true := by decide
/-- F1 and H1: HLT at 253 halts, the PC stays, and a further step does nothing. -/
theorem test_hlt :
    (stopIs (step (boot 0xFD#8 [1#8])) .hlt (boot 0xFD#8 [1#8]) &&
      nextIs (step (raise .hlt State.reset)) fun t => decide (t = raise .hlt State.reset)) = true := by decide
/-- F2: HLT at 254 is never reached. -/
theorem test_hlt_at_254 :
    stopIs (step (boot 0xFE#8 [1#8])) (.memAddr 256) (boot 0xFE#8 [1#8]) = true := by decide
/-- F6: 0xA1 stops with its byte recorded. -/
theorem test_unrecognized :
    stopIs (step (boot 0#8 [0xA1#8, 0#8, 1#8])) (.unrecognized 0xA1#8) (boot 0#8 [0xA1#8, 0#8, 1#8]) = true := by
  decide
/-- F4: at 254 the operand fetch comes first. -/
theorem test_unrecognized_at_254 :
    stopIs (step (boot 0xFE#8 [0xFF#8])) (.memAddr 256) (boot 0xFE#8 [0xFF#8]) = true := by decide
/-- R18: the stop report of an unrecognized opcode, and none while running. -/
theorem test_stop_report :
    (after (boot 5#8 [0#8])).stopReport = some ⟨.unrecognizedInstruction, .opcode 0#8, 5#8⟩ ∧
      State.reset.stopReport = none ∧ (after (boot 5#8 [0#8])).cause.code = 2 := by decide
/-- Writing 0 unlists the byte: memory is canonical. -/
theorem test_memory_canonical : memWrite (memWrite [] 7#8 1#8) 7#8 0#8 = [] := by decide

/-! ### Witnesses: the hypotheses of every statement are met -/

theorem witness_launch : (launch [1#8]).isSome = true ∧ (List.replicate 256 1#8).length ≤ 256 ∧
    256 < (List.replicate 257 1#8).length :=
  ⟨by decide, by rw [List.length_replicate], by rw [List.length_replicate]; omega⟩

theorem witness_FirstCycleFetchesAtZero : (launch [1#8]).isSome = true ∧
    decode [[1#8].getD 0 0#8, [1#8].getD 1 0#8, [1#8].getD 2 0#8] = .instr .hlt [0#8, 0#8] := by decide

theorem witness_StepKeepsInvariant :
    (boot 0#8 [0x45#8, 0#8]).Inv ∧ nextIs (step (boot 0#8 [0x45#8, 0#8])) (fun _ => true) = true := by decide

theorem witness_EncodedInstructionDecodes :
    opcodes.Valid ∧ (Instr.push 255#8).wfFor opcodes = true ∧ (Instr.unrecognized 0#8).wfFor opcodes = true := by
  decide

theorem witness_DecodedBytesAreEncoding :
    decodeWith opcodes [0x45#8, 255#8, 1#8] = .instr (.push 255#8) [1#8] := by decide

theorem witness_EveryOtherOpcodeByteIsUnrecognized :
    (boot 253#8 [0#8]).run = .running ∧ (boot 253#8 [0#8]).pc.toNat ≤ 253 ∧
      (boot 253#8 [0#8]).readMem (boot 253#8 [0#8]).pc ∉ opcodes.toList := by decide

theorem witness_UnusedOperandBytesIgnored :
    decodeKind opcodes 0x11#8 ∈ [Kind.ret, .hlt] ∧ decodeKind opcodes 1#8 ∈ [Kind.ret, .hlt] ∧
      ([0x47#8, 0x45#8, 0x46#8, 0x50#8].all fun b =>
        decide (decodeKind opcodes b ∈ [Kind.prn, .push, .pop, .call])) = true ∧
      (boot 254#8 []).run = .running ∧ 254 ≤ (boot 254#8 []).pc.toNat := by decide

/-- CycleRunsDecodedInstruction, NextPcTable and the other statements over `Fetches`: an instruction of
every kind, at the highest PC where it completes. -/
theorem witness_fetches :
    ([ (Instr.ldi 0#8 1#8, boot 252#8 [0x82#8, 0#8, 1#8], 255#8)
     , (.prn 7#8, boot 253#8 [0x47#8, 7#8], 255#8)
     , (.add 0#8 7#8, boot 252#8 [0xA0#8, 0#8, 7#8], 255#8)
     , (.mul 7#8 0#8, boot 252#8 [0xA2#8, 7#8, 0#8], 255#8)
     , (.push 7#8, boot 253#8 [0x45#8, 7#8], 255#8)
     , (.pop 0#8, boot 253#8 [0x46#8, 0#8], 255#8)
     , (.call 7#8, boot 253#8 [0x50#8, 7#8], 0xF3#8)
     , (.ret, boot 253#8 [0x11#8], 0#8) ].all fun c =>
        fetchesB c.2.1 c.1 && nextIs (step c.2.1) fun t => t.run == .running && t.pc == c.2.2) = true := by decide

theorem witness_fetches_stops :
    (fetchesB (boot 253#8 [1#8]) .hlt && fetchesB (boot 253#8 [0xFF#8]) (.unrecognized 0xFF#8)) = true := by decide

/-- CycleFollowsStepFunction, OperandFetchIsUnconditional, FirstApplicableStopIsReported: a running core at
each boundary of the PC. -/
theorem witness_running : opcodes.Valid ∧ ([253#8, 254#8, 255#8].all fun pc =>
    (boot pc []).run == .running) = true := by decide

theorem witness_HaltedCoreStaysUnchanged : (raise .hlt State.reset).run = .halted := rfl

theorem witness_RegisterFileContract : (7 : RegIx).val = (7#8).toNat ∧ 8 ≤ (8#8).toNat := by decide

theorem witness_OutOfRangeRegisterOperandStops : 8 ≤ (8#8).toNat ∧ (7#8).toNat ≤ 7 ∧ 8 ≤ (255#8).toNat := by decide

theorem witness_MemoryReadWriteContract :
    ((255#8).toNat : Int) = 255 ∧ ((0#8).toNat : Int) = 0 ∧ ((-1 : Int) < 0 ∨ 255 < (-1 : Int)) ∧
      ((256 : Int) < 0 ∨ 255 < (256 : Int)) := by decide

/-- AluContract, LdiRule, AddRule, MulRule: completing operands at 252, and the stop at 253. -/
theorem witness_three_byte_rules :
    (7 : RegIx).val = (7#8).toNat ∧ (0 : RegIx).val = (0#8).toNat ∧ (7#8).toNat ≤ 7 ∧
      (boot 252#8 []).pc.toNat ≤ 252 ∧ (boot 253#8 []).pc.toNat = 253 ∧ 8 ≤ (8#8).toNat := by decide

/-- PrnRule: the register and the highest PC. -/
theorem witness_PrnRule :
    (7 : RegIx).val = (7#8).toNat ∧ (boot 253#8 []).pc.toNat ≤ 253 ∧ 8 ≤ (8#8).toNat := by decide

/-- PushRule, CallRule: SP 1 completes, SP 0 stops. -/
theorem witness_push_rules :
    (7 : RegIx).val = (7#8).toNat ∧ ((boot 253#8 []).writeSp 1#8).sp ≠ 0#8 ∧
      ((boot 253#8 []).writeSp 1#8).pc.toNat ≤ 253 ∧ ((boot 253#8 []).writeSp 0#8).sp = 0#8 ∧
      (7#8).toNat ≤ 7 ∧ 8 ≤ (8#8).toNat := by decide

/-- PopRule, RetRule, StackPointerDoesNotWrap: SP 254 completes, SP 255 stops; for R7 the byte on top does. -/
theorem witness_pop_rules :
    (6 : RegIx).val = (6#8).toNat ∧ (6#8).toNat ≤ 6 ∧ ((boot 253#8 []).writeSp 254#8).sp ≠ 255#8 ∧
      ((boot 253#8 []).writeSp 255#8).sp = 255#8 ∧ (7 : RegIx).val = (7#8).toNat ∧
      ((boot 0#8 []).writeMem 0xF4#8 254#8).readMem ((boot 0#8 []).writeMem 0xF4#8 254#8).sp ≠ 255#8 ∧
      ((boot 0#8 []).writeMem 0xF4#8 255#8).readMem ((boot 0#8 []).writeMem 0xF4#8 255#8).sp = 255#8 := by
  decide

/-- UnrecognizedRule and HltRule: a running core at 254, and the soft stop at 253. -/
theorem witness_UnrecognizedRule :
    (boot 254#8 [0#8]).run = .running ∧ (boot 254#8 [0#8]).readMem (boot 254#8 [0#8]).pc ∉ opcodes.toList ∧
      254 ≤ (boot 254#8 [0#8]).pc.toNat ∧ (boot 253#8 [0#8]).run = .running ∧
      nextIs (step (boot 253#8 [0#8])) (fun t => t.run == .halted && t.cause == .unrecognizedInstruction) = true := by
  decide

theorem witness_UnsupportedOperationUnreachable :
    nextIs (step (raise (.unsupported (.other 0)) State.reset))
      (fun t => t.cause == .unsupportedOperation) = true := by decide

/-- The frames: every instruction they name answers a next state, completing and stopping. -/
theorem witness_frames :
    ([Instr.ldi 7#8 1#8, .add 0#8 7#8, .mul 7#8 0#8, .prn 7#8, .push 7#8, .call 7#8, .pop 7#8, .ret].all fun i =>
        nextIs (exec i State.reset) (fun t => t.run == .running) &&
        nextIs (exec i ((boot 254#8 []).writeSp 255#8)) fun t => t.run == .halted) = true := by decide

theorem witness_UnnamedRegistersHaveNoPart :
    namesReg (.ldi 0#8 1#8) 7 = false ∧ namesReg (.add 0#8 1#8) 7 = false ∧ namesReg (.push 0#8) 6 = false ∧
      namesReg .ret 0 = false ∧ namesReg .hlt 7 = false := by decide

/-- OnlyPushAndCallStore: PUSH R7 and CALL R0 each change the byte below the stack pointer. -/
theorem witness_OnlyPushAndCallStore :
    (nextIs (step (boot 0#8 [0x45#8, 7#8])) (fun t => t.readMem 0xF3#8 != 0#8) &&
      nextIs (step (boot 0#8 [0x50#8, 0#8])) (fun t => t.readMem 0xF3#8 != 0#8) &&
      (boot 0#8 [0x45#8, 7#8]).readMem 0xF3#8 == 0#8 && (boot 0#8 [0x50#8, 0#8]).readMem 0xF3#8 == 0#8) = true := by
  decide

/-- CycleReadsOnlyFetchedAndPoppedBytes: the byte at the stack pointer in a PRN, the byte above it in a POP,
and the byte that a PUSH stores over. -/
theorem witness_CycleReadsOnlyFetchedAndPoppedBytes :
    (fetchesB (boot 0#8 [0x47#8, 0#8]) (.prn 0#8) && fetchesB (boot 0#8 [0x46#8, 0#8]) (.pop 0#8) &&
      fetchesB (boot 0#8 [0x45#8, 0#8]) (.push 0#8) &&
      [0xF3#8, 0xF4#8, 0xF5#8].all fun x => x != 0#8 && x != 1#8 && x != 2#8) = true := by decide

/-- StopsArePrecise, RunEndsInThreeWays, GoodEndExactlyByHlt: a running core that goes on, and one for each
way to end. -/
theorem witness_RunEndsInThreeWays :
    (nextIs (step (boot 0#8 [0x47#8, 0#8])) (fun t => t.run == .running) &&
      nextIs (step (boot 0#8 [1#8])) (fun t => decide t.goodEnd) &&
      nextIs (step (boot 0#8 [])) (fun t => t.cause == .unrecognizedInstruction) &&
      nextIs (step ((boot 0#8 [0x45#8, 0#8]).writeSp 0#8)) (fun t => t.info == .memAddr (-1)) &&
      nextIs (step (boot 255#8 [])) (fun t => t.info == .memAddr 256) &&
      nextIs (step (boot 0#8 [0x47#8, 255#8])) (fun t => t.info == .regIndex 255)) = true := by decide

/-- StoredByteIsFetchedNext: the PUSH of program P5. -/
theorem witness_StoredByteIsFetchedNext :
    let s := ((boot 6#8 [0x45#8, 0#8, 0xFF#8]).writeSp 9#8).writeReg 0 1#8
    fetchesB s (.push 0#8) = true ∧ nextIs (step s) (fun t => t.run == .running) = true ∧ s.pc.toNat ≤ 251 ∧
      (s.sp.toNat : Int) - 1 = s.pc.toNat + 2 ∧
      decode [(s.writeSp (s.sp - 1#8)).readReg 0, s.readMem (s.pc + 3#8), s.readMem (s.pc + 4#8)]
        = .instr .hlt [0#8, 0#8] := by decide

/-- PushThenPopRestores: R7 at the highest PC and the lowest stack pointer. -/
theorem witness_PushThenPopRestores :
    let s := (boot 250#8 [0x45#8, 7#8, 0x46#8, 7#8]).writeSp 1#8
    (7 : RegIx).val = (7#8).toNat ∧ s.run = .running ∧ s.pc.toNat ≤ 251 ∧ s.sp ≠ 0#8 ∧
      s.readMem s.pc = opcodes.push ∧ s.readMem (s.pc + 1#8) = 7#8 ∧ s.readMem (s.pc + 2#8) = opcodes.pop ∧
      s.readMem (s.pc + 3#8) = 7#8 ∧ s.sp - 1#8 ≠ s.pc + 2#8 ∧ s.sp - 1#8 ≠ s.pc + 3#8 := by decide

/-- BalancedRunRestoresStackPointer: PUSH R0 then POP R0 from launch. -/
theorem witness_BalancedRunRestoresStackPointer :
    launch [0x45#8, 0#8, 0x46#8, 0#8] = some (boot 0#8 [0x45#8, 0#8, 0x46#8, 0#8]) ∧
      StackRun (boot 0#8 [0x45#8, 0#8, 0x46#8, 0#8]) 0 (after (after (boot 0#8 [0x45#8, 0#8, 0x46#8, 0#8]))) := by
  refine ⟨by decide, ?_⟩
  exact .cycle (i := .push 0#8) (d := 1) (fetches_of (by decide)) rfl (step_eq_after (by decide)) (.inl (by decide))
    (.cycle (i := .pop 0#8) (d := 0) (fetches_of (by decide)) rfl (step_eq_after (by decide)) (.inl (by decide))
      (.done _))

/-- ReturnGoesAfterCall: CALL R1 to a RET. -/
theorem witness_ReturnGoesAfterCall :
    let s := (boot 6#8 [0x50#8, 1#8, 0x11#8]).writeReg 1 8#8
    Fetches s (.call 1#8) ∧ step s = .next (after s) ∧ (after s).run = .running ∧
      StackRun (after s) 0 (after s) ∧ Fetches (after s) .ret :=
  ⟨fetches_of (by decide), step_eq_after (by decide), by decide, .done _, fetches_of (by decide)⟩

theorem witness_ControlTableMatchesInstructionRules :
    decodeWith opcodes [0x46#8, 7#8, 0#8] = .instr (.pop 7#8) [0#8] := by decide

theorem witness_PlacedWordRunsNext :
    State.reset.pc.toNat ≤ 253 ∧ decodeTableWord 16 0x0745 = some (.push 7#8) := by decide

end Sys2Proof.Tests
end

section
/-! PROOF. The stack operations that complete, the pair PUSH then POP, and how a run without ordinary writes
to R7 moves the stack pointer (`43_stack.md`). -/

namespace Sys2Proof.Machine

variable {s t u : State} {i : Instr} {r : RegIx} {a b : Byte} {d : Int}

/-! ### One cycle and several -/

/-- The cycle of a fetched instruction is its rule (R70, R74). -/
theorem step_of_fetches (h : Fetches s i) : step s = exec i s := by
  obtain ⟨hrun, hpc, rest, hdec⟩ := h
  unfold decode at hdec
  simp only [step, cycleWith, hrun, withFetch_of_le hpc, hdec]

/-- A run's first step, and the run from where it leads. -/
theorem core_run_succ (k : Nat) (h : step s = .next t) :
    Host.Core.run core (k + 1) s = Host.Core.run core k t := by
  have hcore : core.step s = .next t := h
  simp only [Host.Core.run, hcore]

theorem decode_push : decode [opcodes.push, a, b] = .instr (.push a) [b] := rfl

theorem decode_pop : decode [opcodes.pop, a, b] = .instr (.pop a) [b] := rfl

theorem fetches_push (hrun : s.run = .running) (hpc : s.pc.toNat ≤ 253)
    (hop : s.readMem s.pc = opcodes.push) (ha : s.readMem (s.pc + 1#8) = a) : Fetches s (.push a) :=
  ⟨hrun, hpc, [s.readMem (s.pc + 2#8)], by rw [hop, ha, decode_push]⟩

theorem fetches_pop (hrun : s.run = .running) (hpc : s.pc.toNat ≤ 253)
    (hop : s.readMem s.pc = opcodes.pop) (ha : s.readMem (s.pc + 1#8) = a) : Fetches s (.pop a) :=
  ⟨hrun, hpc, [s.readMem (s.pc + 2#8)], by rw [hop, ha, decode_pop]⟩

/-! ### PUSH and POP when they complete -/

/-- A byte read after a store (R31, R32). -/
theorem State.readMem_writeMem (x y v : Byte) :
    (s.writeMem x v).readMem y = if y = x then v else s.readMem y :=
  memRead_memWrite x y v s.mem

/-- The byte PUSH stores: the register as read once R7 is decremented (R120). -/
def State.pushedByte (s : State) (r : RegIx) : Byte :=
  (s.writeSp (s.sp - 1#8)).readReg r

theorem State.pushedByte_eq (s : State) (r : RegIx) :
    s.pushedByte r = if r = 7 then s.sp - 1#8 else s.readReg r :=
  State.readReg_writeSp ..

/-- The state after a PUSH that completes (R120). -/
def State.pushed (s : State) (r : RegIx) : State :=
  ((s.writeSp (s.sp - 1#8)).writeMem (s.sp - 1#8) (s.pushedByte r)).setPc (s.pc + 2#8)

@[simp] theorem State.pushed_pc : (s.pushed r).pc = s.pc + 2#8 := rfl
@[simp] theorem State.pushed_run : (s.pushed r).run = s.run := rfl
@[simp] theorem State.pushed_sp : (s.pushed r).sp = s.sp - 1#8 := State.sp_writeSp ..

theorem State.readMem_pushed (x : Byte) :
    (s.pushed r).readMem x = if x = s.sp - 1#8 then s.pushedByte r else s.readMem x :=
  State.readMem_writeMem ..

/-- The state after a POP that completes (R121). -/
def State.popped (s : State) (r : RegIx) : State :=
  ((s.writeReg r (s.readMem s.sp)).writeSp ((s.writeReg r (s.readMem s.sp)).sp + 1#8)).setPc (s.pc + 2#8)

/-- A register operand that names `r` reaches the rest of the rule with `r` (R54). -/
theorem withReg_of_eq (hr : r.val = a.toNat) (body : RegIx → Result) : withReg a s body = body r := by
  rw [withReg_of_lt (hr ▸ r.isLt)]
  exact congrArg body (Fin.ext hr.symm)

theorem exec_push_completes (hr : r.val = a.toNat) (hsp : s.sp ≠ 0#8) (hpc : s.pc.toNat ≤ 253) :
    exec (.push a) s = .next (s.pushed r) := by
  rw [exec_push, withReg_of_eq hr, withPush_of_ne hsp, withPcPlus_of_le (by omega)]
  rfl

theorem exec_pop_completes (hr : r.val = a.toNat) (hsp : (s.writeReg r (s.readMem s.sp)).sp ≠ 255#8)
    (hpc : s.pc.toNat ≤ 253) : exec (.pop a) s = .next (s.popped r) := by
  rw [exec_pop, withReg_of_eq hr, withPopped_of_ne hsp]
  exact withPcPlus_of_le (s := s) (by omega) _

/-! ### PUSH then POP -/

/-- What the POP of a pair loads is what its PUSH stored. -/
theorem State.readMem_sp_pushed : (s.pushed r).readMem (s.pushed r).sp = s.pushedByte r := by
  rw [State.readMem_pushed, State.pushed_sp, if_pos rfl]

/-- Once the POP of a pair has loaded its register, the stack pointer still stands at the stored byte: for
R7 because the byte stored is the decremented stack pointer. -/
theorem State.sp_load_pushed :
    ((s.pushed r).writeReg r (s.pushedByte r)).sp = s.sp - 1#8 := by
  rw [State.sp_writeReg, State.pushedByte_eq, State.pushed_sp]
  split <;> rfl

/-- The pair restores every register; the stored byte and the PC are all that changes. -/
theorem State.popped_pushed :
    (s.pushed r).popped r = (s.writeMem (s.sp - 1#8) (s.pushedByte r)).setPc (s.pc + 4#8) := by
  refine State.ext_readReg (fun q => ?_) ?_ rfl rfl rfl rfl rfl
  · unfold State.popped
    rw [State.readMem_sp_pushed, State.sp_load_pushed, State.setPc_readReg, State.readReg_writeSp]
    change _ = s.readReg q
    by_cases hq : q = 7
    · rw [if_pos hq, hq, sub_add_cancel]
      rfl
    · rw [if_neg hq, State.readReg_writeReg]
      by_cases hqr : q = r
      · rw [if_pos hqr, State.pushedByte_eq, ← hqr, if_neg hq]
      · rw [if_neg hqr]
        exact (State.readReg_writeSp ..).trans (if_neg hq)
  · change s.pc + 2#8 + 2#8 = s.pc + 4#8
    rw [add_assoc]
    rfl

/-- Settles O49: both instructions are fetched, since the PUSH does not store over the POP, and the two
completed rules compose to a store and an advance of the PC (`State.popped_pushed`). -/
theorem pushThenPopRestores : Obligations.PushThenPopRestores := by
  unfold Obligations.PushThenPopRestores
  intro s a r hr hrun hpc hsp hpush ha hpop ha' hne hne'
  have hpc2 : (s.pc + 2#8).toNat ≤ 253 := by bv_omega
  have hpushStep : step s = .next (s.pushed r) := by
    rw [step_of_fetches (fetches_push hrun (by omega) hpush ha), exec_push_completes hr hsp (by omega)]
  have hfetch : Fetches (s.pushed r) (.pop a) := by
    refine fetches_pop hrun hpc2 ?_ ?_
    · rw [State.readMem_pushed, State.pushed_pc, if_neg hne.symm, hpop]
    · have h3 : (s.pushed r).pc + 1#8 = s.pc + 3#8 := by
        rw [State.pushed_pc, add_assoc]
        rfl
      rw [h3, State.readMem_pushed, if_neg hne'.symm, ha']
  have hload : ((s.pushed r).writeReg r ((s.pushed r).readMem (s.pushed r).sp)).sp ≠ 255#8 := by
    rw [State.readMem_sp_pushed, State.sp_load_pushed]
    bv_omega
  have hpopStep : step (s.pushed r) = .next ((s.pushed r).popped r) := by
    rw [step_of_fetches hfetch, exec_pop_completes hr hload hpc2]
  refine ⟨(s.pushed r).popped r, ?_, ?_⟩
  · rw [core_run_succ 1 hpushStep, core_run_succ 0 hpopStep]
    rfl
  · rw [State.popped_pushed]
    refine ⟨rfl, rfl, fun x => ?_, rfl, rfl, rfl, rfl⟩
    rw [State.setPc_readMem, State.readMem_writeMem, State.pushedByte_eq]

/-! ### The stack pointer along a run -/

/-- A byte above 0, decremented, as an integer. -/
theorem toNat_sub_one_of_ne_zero {x : Byte} (h : x ≠ 0#8) : ((x - 1#8).toNat : Int) = x.toNat + -1 := by
  bv_omega

/-- A byte below 255, incremented, as an integer. -/
theorem toNat_add_one_of_ne_max {x : Byte} (h : x ≠ 255#8) : ((x + 1#8).toNat : Int) = x.toNat + 1 := by
  bv_omega

/-- A write to the register of an operand other than 7 leaves the stack pointer. -/
theorem sp_writeReg_of_ne (ha : a.toNat < 8) (h7 : (a == 7#8) = false) (v : Byte) :
    (s.writeReg ⟨a.toNat, ha⟩ v).sp = s.sp := by
  rw [State.sp_writeReg, if_neg]
  intro h
  have hval : a.toNat = (7 : RegIx).val := Fin.ext_iff.mp h
  exact beq_eq_false_iff_ne.mp h7 (BitVec.eq_of_toNat_eq (y := 7#8) hval)

/-- An instruction that does not write R7 as an ordinary destination and does not stop, but for HLT, moves
the stack pointer by its stack operation (R82). -/
theorem Effect.sp_eq (h : Effect i s t) (hw : writesSpAsRegister i = false)
    (hgo : t.run = .running ∨ i = .hlt) : (t.sp.toNat : Int) = s.sp.toNat + spDelta i := by
  have stopped {k : Stop} (hgo : (raise k s).run = .running ∨ i = .hlt) :
      ((raise k s).sp.toNat : Int) = s.sp.toNat + spDelta i := by
    obtain hrun | rfl := hgo
    · cases hrun
    · exact (add_zero _).symm
  cases h with
  | regIndex | below | above | hlt | unrecognized => exact stopped hgo
  | ldi ha | add ha | mul ha =>
    rw [State.setPc_sp, sp_writeReg_of_ne ha hw]
    exact (add_zero _).symm
  | prn => exact (add_zero _).symm
  | push ha hs | call ha hs =>
    rw [State.setPc_sp, State.writeMem_sp, State.sp_writeSp]
    exact toNat_sub_one_of_ne_zero hs
  | pop ha hs =>
    rw [sp_writeReg_of_ne ha hw] at hs ⊢
    rw [State.setPc_sp, State.sp_writeSp]
    exact toNat_add_one_of_ne_max hs
  | ret hs =>
    rw [State.setPc_sp, State.sp_writeSp]
    exact toNat_add_one_of_ne_max hs

/-- The stack pointer moves by a run's net movement. -/
theorem StackRun.sp_eq (h : StackRun s d u) : (u.sp.toNat : Int) = s.sp.toNat + d := by
  induction h with
  | done s => exact (add_zero _).symm
  | @cycle s t u i d hf hw hstep hgo _ ih =>
    rw [step_of_fetches hf] at hstep
    rw [ih, (exec_effect hstep).sp_eq hw hgo, add_assoc]

/-- A launch state has the stack pointer of reset (R182). -/
theorem launch_sp {image : List Byte} (h : launch image = some s) : s.sp = Config.spInit := by
  unfold launch State.load at h
  split at h
  · cases h
    rfl
  · cases h

/-- Settles O50, by induction along the run (`StackRun.sp_eq`). -/
theorem balancedRunRestoresStackPointer : Obligations.BalancedRunRestoresStackPointer := by
  unfold Obligations.BalancedRunRestoresStackPointer
  refine ⟨fun s d u h => h.sp_eq, fun image s u hl h => ?_⟩
  have hsp : u.sp = s.sp := by
    have := h.sp_eq
    exact BitVec.eq_of_toNat_eq (by omega)
  rw [hsp, launch_sp hl]
  rfl

end Sys2Proof.Machine
end

section
/-! PROOF. The architectural state of `10_state.md`: what reset and load leave in it, register operands that
exist and that do not, the next PC of each instruction, and the output port's history. -/

namespace Sys2Proof.Machine

variable {s t : State} {i : Instr} {r : RegIx} {a : Byte}

/-! ### Reset and load (R23, R182) -/

theorem State.reset_readMem (x : Byte) : State.reset.readMem x = 0#8 := rfl

theorem State.reset_readReg_of_ne : ∀ r : RegIx, r ≠ 7 → State.reset.readReg r = 0#8 := by decide

/-- A launch state is the reset state with the image placed from address 0 (R182). -/
theorem launch_eq {image : List Byte} (h : launch image = some t) :
    t = { State.reset with mem := memPlace [] 0 image } := by
  unfold launch State.load at h
  split at h
  · cases h
    rfl
  · cases h

/-- A byte of a launch state: the image's, or the reset value past its end. -/
theorem launch_readMem {image : List Byte} (h : launch image = some t) (x : Byte) :
    t.readMem x = image.getD x.toNat 0#8 := by
  have hplaced : t.readMem x = memLookup (memPlace [] 0 image) x.toNat := by
    rw [launch_eq h]
    rfl
  rw [hplaced, memLookup_memPlace [] 0 x.toNat image x.isLt]
  split
  · rfl
  · next hout => exact (List.getD_eq_default _ _ (by omega)).symm

/-- Settles O1, from the reset state's own fields and what a placed image reads as (`launch_readMem`). -/
theorem resetValues : Obligations.ResetValues := by
  unfold Obligations.ResetValues
  exact ⟨State.reset_readReg_of_ne, rfl, rfl, State.reset_readMem, rfl, rfl, rfl, rfl,
    fun _ _ h => launch_readMem h⟩

/-! ### Register operands (R13, R54) -/

/-- Settles O21: the check of `operand_a`, and for ADD and MUL that of `operand_b` behind it, comes before
everything else in each rule. -/
theorem outOfRangeRegisterOperandStops : Obligations.OutOfRangeRegisterOperandStops := by
  unfold Obligations.OutOfRangeRegisterOperandStops
  refine ⟨fun a s r body hr => withReg_of_eq hr body, fun n s => ⟨rfl, rfl, rfl, rfl⟩, ?_, ?_⟩
  · intro a b s ha
    rw [exec_ldi, exec_prn, exec_add, exec_mul, exec_push, exec_pop, exec_call]
    exact ⟨withReg_of_ge ha _, withReg_of_ge ha _, withReg_of_ge ha _, withReg_of_ge ha _,
      withReg_of_ge ha _, withReg_of_ge ha _, withReg_of_ge ha _⟩
  · intro a b s ha hb
    have ha8 : a.toNat < 8 := by omega
    rw [exec_add, exec_mul, withReg_of_lt ha8, withReg_of_lt ha8]
    exact ⟨withReg_of_ge hb _, withReg_of_ge hb _⟩

/-! ### The next PC (R15) -/

/-- Settles O19: a completing instruction's PC sum is in range, so it does not wrap, and a stop leaves the PC
and a core that is not running. -/
theorem nextPcTable : Obligations.NextPcTable := by
  unfold Obligations.NextPcTable
  intro s t i hf hstep
  rw [step_of_fetches hf] at hstep
  cases exec_effect hstep with
  | regIndex | below | above => cases i <;> simp
  | ldi _ hp | add _ _ hp | mul _ _ hp | prn _ hp | push _ _ hp | pop _ _ hp =>
    intro _
    rw [State.setPc_pc]
    bv_omega
  | call ha =>
    intro r hr _
    exact congrArg _ (Fin.ext hr.symm)
  | ret => exact fun _ => rfl
  | hlt | unrecognized => rfl

/-! ### A function of states carried through the checks

`f` stands for a change of the state that the checks do not see: when it commutes with a stop, it commutes
with the check, provided that it commutes with what follows. -/

section
variable {f : State → State}

@[simp] theorem onNext_next : onNext f (.next t) = .next (f t) := rfl

theorem onNext_withAddr (hf : ∀ k, f (raise k s) = raise k (f s)) (x : Int) (body : Byte → Result) :
    onNext f (withAddr x s body) = withAddr x (f s) fun y => onNext f (body y) := by
  unfold withAddr
  split
  · rfl
  · exact congrArg _ (hf _)

theorem onNext_withReg (hf : ∀ k, f (raise k s) = raise k (f s)) (a : Byte) (body : RegIx → Result) :
    onNext f (withReg a s body) = withReg a (f s) fun r => onNext f (body r) := by
  unfold withReg
  split
  · rfl
  · exact congrArg _ (hf _)

end

/-! ### The output port (R22) -/

/-- The state with an older history `p` of the output port in front of its own. -/
def State.prependOut (p : List Byte) (s : State) : State := { s with out := p ++ s.out }

section
variable (p : List Byte) (s)

@[simp] theorem State.prependOut_pc : (s.prependOut p).pc = s.pc := rfl
@[simp] theorem State.prependOut_run : (s.prependOut p).run = s.run := rfl
@[simp] theorem State.prependOut_sp : (s.prependOut p).sp = s.sp := rfl
@[simp] theorem State.prependOut_readReg (r : RegIx) : (s.prependOut p).readReg r = s.readReg r := rfl
@[simp] theorem State.prependOut_readMem (x : Byte) : (s.prependOut p).readMem x = s.readMem x := rfl

/-! Whether the older history is put in front before an update or after it is the same. -/

@[simp] theorem State.prependOut_setPc (x : Byte) :
    (s.prependOut p).setPc x = (s.setPc x).prependOut p := rfl
@[simp] theorem State.prependOut_writeReg (r : RegIx) (v : Byte) :
    (s.prependOut p).writeReg r v = (s.writeReg r v).prependOut p := rfl
@[simp] theorem State.prependOut_writeSp (v : Byte) :
    (s.prependOut p).writeSp v = (s.writeSp v).prependOut p := rfl
@[simp] theorem State.prependOut_writeMem (x v : Byte) :
    (s.prependOut p).writeMem x v = (s.writeMem x v).prependOut p := rfl
@[simp] theorem State.prependOut_emit (v : Byte) :
    (s.prependOut p).emit v = (s.emit v).prependOut p := by
  simp [State.prependOut, State.emit]

/-- Any history is an older history before the empty one. -/
theorem State.prependOut_clearOut : { s with out := [] }.prependOut p = { s with out := p } := by
  simp [State.prependOut]

end

/-- No instruction's rule reads the output port's history: each is checks that do not see it around updates
that leave it in front. -/
theorem exec_prependOut (p : List Byte) (i : Instr) (s : State) :
    exec i (s.prependOut p) = onNext (State.prependOut p) (exec i s) := by
  have hstop : ∀ k, (raise k s).prependOut p = raise k (s.prependOut p) := fun _ => rfl
  cases i with
  | ldi | prn | add | mul | push | pop | call | ret =>
    simp [exec_ldi, exec_prn, exec_add, exec_mul, exec_push, exec_pop, exec_call, exec_ret,
      withPush, withPopped, withPcPlus, onNext_withReg hstop, onNext_withAddr hstop]
  | hlt | unrecognized => rfl

/-- No cycle reads the output port's history. -/
theorem step_prependOut (p : List Byte) (s : State) :
    step (s.prependOut p) = onNext (State.prependOut p) (step s) := by
  unfold step cycleWith
  rw [State.prependOut_run]
  cases s.run with
  | halted => rfl
  | running =>
    by_cases hpc : s.pc.toNat ≤ 253
    · obtain ⟨i, rest, hdec, -⟩ :=
        decodeWith_three opcodes (s.readMem s.pc) (s.readMem (s.pc + 1#8)) (s.readMem (s.pc + 2#8))
      simp only [withFetch_of_le (s := s) hpc, withFetch_of_le (s := s.prependOut p) hpc,
        State.prependOut_pc, State.prependOut_readMem, hdec, exec_prependOut]
    · have hpc : 254 ≤ s.pc.toNat := by omega
      simp only [withFetch_of_ge (s := s) hpc, withFetch_of_ge (s := s.prependOut p) hpc]
      rfl

/-- A step appends to the history something that does not depend on it, and depends on it in nothing else. -/
theorem step_appends (h : step s = .next t) :
    ∃ d, t.out = s.out ++ d ∧ ∀ o, step { s with out := o } = .next { t with out := o ++ d } := by
  have hstep (o : List Byte) :
      step { s with out := o } = onNext (State.prependOut o) (step { s with out := [] }) := by
    rw [← State.prependOut_clearOut, step_prependOut]
  have hs := hstep s.out
  cases h0 : step { s with out := [] } with
  | next u =>
    rw [h0] at hs hstep
    cases h.symm.trans hs
    exact ⟨u.out, rfl, hstep⟩
  | fault | refused =>
    rw [h0] at hs
    cases h.symm.trans hs

/-- PRN completes whenever its register exists and its advance of the PC is in range (R101). -/
theorem exec_prn_completes (hr : r.val = a.toNat) (hpc : s.pc.toNat ≤ 253) :
    exec (.prn a) s = .next ((s.emit (s.readReg r)).setPc (s.pc + 2#8)) := by
  rw [exec_prn, withReg_of_eq hr, withPcPlus_of_le (by omega)]

/-- An instruction leaves the output port's history alone, or is a PRN and appends its register's byte. -/
theorem Effect.out_eq (h : Effect i s t) :
    t.out = s.out ∨
      ∃ (a : Byte) (r : RegIx), r.val = a.toNat ∧ i = .prn a ∧ t.out = s.out ++ [s.readReg r] := by
  cases h with
  | @prn _ a ha => exact .inr ⟨a, ⟨a.toNat, ha⟩, rfl, rfl, rfl⟩
  | _ => exact .inl rfl

/-- A step leaves the output port's history alone, or executes a PRN and appends its register's byte. -/
theorem step_out (h : step s = .next t) :
    t.out = s.out ∨
      ∃ (a : Byte) (r : RegIx), r.val = a.toNat ∧ Fetches s (.prn a) ∧
        t.out = s.out ++ [s.readReg r] := by
  obtain ⟨-, rfl⟩ | ⟨-, -, rfl⟩ | ⟨i, hf, he⟩ := step_cases h
  · exact .inl rfl
  · exact .inl rfl
  · obtain hout | ⟨a, r, hr, rfl, hout⟩ := he.out_eq
    · exact .inl hout
    · exact .inr ⟨a, r, hr, hf, hout⟩

/-- Settles O42: what a step appends is the same under every history (`step_appends`), so it is read off the
history the step began with: nothing, or a PRN's byte (`step_out`), and every PRN that is fetched completes. -/
theorem outputGrowsOnlyByPrn : Obligations.OutputGrowsOnlyByPrn := by
  unfold Obligations.OutputGrowsOnlyByPrn
  refine ⟨rfl, fun s t hstep => ?_⟩
  obtain ⟨d, hd, hother⟩ := step_appends hstep
  refine ⟨d, hd, ?_, fun a r hr hf => ?_, hother⟩
  · obtain hout | ⟨a, r, hr, hf, hout⟩ := step_out hstep
    · exact .inl (List.self_eq_append_right.mp (hout.symm.trans hd))
    · exact .inr ⟨a, r, hr, hf, List.append_cancel_left (hd.symm.trans hout)⟩
  · have hpc : s.pc.toNat ≤ 253 := hf.2.1
    rw [step_of_fetches hf, exec_prn_completes hr hpc] at hstep
    cases hstep
    exact (List.append_cancel_left hd).symm

end Sys2Proof.Machine
end

section
/-! PROOF. The decoder on opcodes with fewer than two operand bytes, and the cycle at a PC where the operand
fetch leaves memory (`30_encoding.md` R59). -/

namespace Sys2Proof.Machine

variable {oc : Opcodes} {ir : Byte}

/-! ### Opcodes without an operand: every byte after the opcode byte is left over (R51) -/

theorem decodeWith_ret (h : decodeKind oc ir = .ret) (rest : List Byte) :
    decodeWith oc (ir :: rest) = .instr .ret rest := by
  simp only [decodeWith, h]

theorem decodeWith_hlt (h : decodeKind oc ir = .hlt) (rest : List Byte) :
    decodeWith oc (ir :: rest) = .instr .hlt rest := by
  simp only [decodeWith, h]

/-! ### Opcodes with one operand: every byte after `operand_a` is left over (R51) -/

theorem decodeWith_prn (h : decodeKind oc ir = .prn) (a : Byte) (rest : List Byte) :
    decodeWith oc (ir :: a :: rest) = .instr (.prn a) rest := by
  simp only [decodeWith, h]

theorem decodeWith_push (h : decodeKind oc ir = .push) (a : Byte) (rest : List Byte) :
    decodeWith oc (ir :: a :: rest) = .instr (.push a) rest := by
  simp only [decodeWith, h]

theorem decodeWith_pop (h : decodeKind oc ir = .pop) (a : Byte) (rest : List Byte) :
    decodeWith oc (ir :: a :: rest) = .instr (.pop a) rest := by
  simp only [decodeWith, h]

theorem decodeWith_call (h : decodeKind oc ir = .call) (a : Byte) (rest : List Byte) :
    decodeWith oc (ir :: a :: rest) = .instr (.call a) rest := by
  simp only [decodeWith, h]

/-! ### The cycle at 254 and 255 -/

/-- The operand fetch's stop comes before the decoder, so the opcode byte does not matter (R72). -/
theorem cycleWith_of_ge (oc : Opcodes) {s : State} (hrun : s.run = .running) (hpc : 254 ≤ s.pc.toNat) :
    cycleWith oc s = .next (raise (.memAddr 256) s) := by
  simp only [cycleWith, hrun, withFetch_of_ge hpc]

/-- Settles O13: the decoder's equation of each kind gives an instruction that does not mention the bytes
left over, and the operand fetch stops the cycle before the decoder is asked (`cycleWith_of_ge`). -/
theorem unusedOperandBytesIgnored : Obligations.UnusedOperandBytesIgnored := by
  unfold Obligations.UnusedOperandBytesIgnored
  refine ⟨fun oc ir h => ?_, fun oc ir a h => ?_, fun oc s => cycleWith_of_ge oc⟩
  · simp only [List.mem_cons, List.not_mem_nil, or_false] at h
    obtain hret | hhlt := h
    · exact ⟨.ret, fun a b => decodeWith_ret hret [a, b]⟩
    · exact ⟨.hlt, fun a b => decodeWith_hlt hhlt [a, b]⟩
  · simp only [List.mem_cons, List.not_mem_nil, or_false] at h
    obtain hprn | hpush | hpop | hcall := h
    · exact ⟨.prn a, fun b => decodeWith_prn hprn a [b]⟩
    · exact ⟨.push a, fun b => decodeWith_push hpush a [b]⟩
    · exact ⟨.pop a, fun b => decodeWith_pop hpop a [b]⟩
    · exact ⟨.call a, fun b => decodeWith_call hcall a [b]⟩

end Sys2Proof.Machine
end

section
/-! PROOF. The cycle of `40_cycle_and_units.md`: what the opcode byte selects, fetch and execute, a halted
core, precise stops; and the contracts of the register file, the ALU and the stack-pointer control. -/

namespace Sys2Proof.Machine

variable {oc : Opcodes} {s t : State} {i : Instr} {k : Kind} {r ra rb : RegIx} {a b ir x v : Byte}

/-! ### Recognition (R73) -/

/-- The opcode number of a kind (R53); an unrecognized byte has none of its own. -/
def numberOf (oc : Opcodes) : Kind → Option Byte
  | .ldi => some oc.ldi
  | .prn => some oc.prn
  | .add => some oc.add
  | .mul => some oc.mul
  | .push => some oc.push
  | .pop => some oc.pop
  | .call => some oc.call
  | .ret => some oc.ret
  | .hlt => some oc.hlt
  | .unrecognized => none

/-- A byte recognised as one of the nine kinds is that kind's number, whatever the numbers are. -/
theorem numberOf_decodeKind (oc : Opcodes) (ir : Byte) :
    numberOf oc (decodeKind oc ir) = some ir ∨ decodeKind oc ir = .unrecognized := by
  unfold decodeKind
  split_ifs <;> simp_all [numberOf]

/-- With valid numbers the comparisons do not overlap (R62), so each number is recognised as its kind. -/
theorem decodeKind_of_numberOf (hv : oc.Valid) (hk : numberOf oc k = some ir) :
    decodeKind oc ir = k := by
  have hnodup := hv.1
  simp only [Opcodes.toList, List.nodup_cons, List.mem_cons, List.not_mem_nil, or_false, not_or] at hnodup
  cases k with
  | unrecognized => cases hk
  | ldi | prn | add | mul | push | pop | call | ret | hlt =>
    cases hk
    simp [decodeKind, hnodup, eq_comm]

/-- Equality with a kind's number is what recognises the kind. -/
theorem decodeKind_eq_iff (hv : oc.Valid) (hk : numberOf oc k = some x) :
    decodeKind oc ir = k ↔ ir = x := by
  refine ⟨?_, ?_⟩
  · rintro rfl
    obtain hir | hun := numberOf_decodeKind oc ir
    · exact Option.some.inj (hir.symm.trans hk)
    · rw [hun] at hk
      cases hk
  · rintro rfl
    exact decodeKind_of_numberOf hv hk

theorem decodeKind_eq_unrecognized_iff (oc : Opcodes) (ir : Byte) :
    decodeKind oc ir = .unrecognized ↔ ir ∉ oc.toList := by
  simp only [Opcodes.toList, List.mem_cons, List.not_mem_nil, or_false, not_or]
  unfold decodeKind
  split_ifs <;> simp_all

/-- Settles O11, from the comparison with each kind's number (`decodeKind_eq_iff`); three bytes hold every
instruction, so the operand bytes have no part in it. -/
theorem opcodeByteAloneSelectsInstruction : Obligations.OpcodeByteAloneSelectsInstruction := by
  unfold Obligations.OpcodeByteAloneSelectsInstruction
  intro oc hv ir
  exact ⟨decodeKind_eq_iff hv rfl, decodeKind_eq_iff hv rfl, decodeKind_eq_iff hv rfl,
    decodeKind_eq_iff hv rfl, decodeKind_eq_iff hv rfl, decodeKind_eq_iff hv rfl,
    decodeKind_eq_iff hv rfl, decodeKind_eq_iff hv rfl, decodeKind_eq_iff hv rfl,
    decodeKind_eq_unrecognized_iff oc ir, decodeWith_three oc ir⟩

/-! ### Opcodes with two operands, and the unrecognized opcode, to the decoder (R51, R141) -/

theorem decodeWith_ldi (h : decodeKind oc ir = .ldi) (a b : Byte) (rest : List Byte) :
    decodeWith oc (ir :: a :: b :: rest) = .instr (.ldi a b) rest := by
  simp only [decodeWith, h]

theorem decodeWith_add (h : decodeKind oc ir = .add) (a b : Byte) (rest : List Byte) :
    decodeWith oc (ir :: a :: b :: rest) = .instr (.add a b) rest := by
  simp only [decodeWith, h]

theorem decodeWith_mul (h : decodeKind oc ir = .mul) (a b : Byte) (rest : List Byte) :
    decodeWith oc (ir :: a :: b :: rest) = .instr (.mul a b) rest := by
  simp only [decodeWith, h]

theorem decodeWith_unrecognized (h : decodeKind oc ir = .unrecognized) (rest : List Byte) :
    decodeWith oc (ir :: rest) = .instr (.unrecognized ir) rest := by
  simp only [decodeWith, h]

/-! ### Fetch, decode, execute (R70 to R74) -/

/-- The cycle is the rule of the instruction that the three fetched bytes decode to. -/
theorem cycleWith_of_decodeWith {rest : List Byte} (hrun : s.run = .running) (hpc : s.pc.toNat ≤ 253)
    (hdec : decodeWith oc [s.readMem s.pc, s.readMem (s.pc + 1#8), s.readMem (s.pc + 2#8)]
      = .instr i rest) : cycleWith oc s = exec i s := by
  simp only [cycleWith, hrun, withFetch_of_le hpc, hdec]

/-- Settles O14, over any opcode numbers (`cycleWith_of_decodeWith`) and for the machine's step. -/
theorem cycleRunsDecodedInstruction : Obligations.CycleRunsDecodedInstruction := by
  unfold Obligations.CycleRunsDecodedInstruction
  exact ⟨fun _ _ _ _ => cycleWith_of_decodeWith, fun _ _ => step_of_fetches⟩

/-- Settles O16: at 254 and 255 the operand fetch stops the cycle (`cycleWith_of_ge`), and below that the
three bytes decode to some instruction, whose rule is the cycle. -/
theorem operandFetchIsUnconditional : Obligations.OperandFetchIsUnconditional := by
  unfold Obligations.OperandFetchIsUnconditional
  intro oc s hrun
  refine ⟨fun h => cycleWith_of_ge oc hrun (by rw [h]; decide),
    fun h => cycleWith_of_ge oc hrun (by rw [h]; decide), fun hpc => ?_⟩
  obtain ⟨i, rest, hdec, -⟩ :=
    decodeWith_three oc (s.readMem s.pc) (s.readMem (s.pc + 1#8)) (s.readMem (s.pc + 2#8))
  exact ⟨i, rest, hdec, cycleWith_of_decodeWith hrun hpc hdec⟩

/-- Settles O15: where an operand address leaves memory, the sum recorded is 256; everywhere else each
number decodes to its instruction with the operand bytes. -/
theorem cycleFollowsStepFunction : Obligations.CycleFollowsStepFunction := by
  unfold Obligations.CycleFollowsStepFunction
  intro oc s hv hrun
  have hlt := s.pc.isLt
  split_ifs with h1 h2
  · have hsum : (s.pc.toNat : Int) + 1 = 256 := by omega
    rw [hsum, cycleWith_of_ge oc hrun (by omega)]
  · have hsum : (s.pc.toNat : Int) + 2 = 256 := by omega
    rw [hsum, cycleWith_of_ge oc hrun (by omega)]
  · intro ir a b
    have cycle {i : Instr} {rest : List Byte} (hdec : decodeWith oc [ir, a, b] = .instr i rest) :
        cycleWith oc s = exec i s := cycleWith_of_decodeWith hrun (by omega) hdec
    have kind {k : Kind} {x : Byte} (hk : numberOf oc k = some x) (h : ir = x) : decodeKind oc ir = k :=
      (decodeKind_eq_iff hv hk).mpr h
    exact ⟨fun h => cycle (decodeWith_ldi (kind rfl h) ..),
      fun h => cycle (decodeWith_prn (kind rfl h) ..),
      fun h => cycle (decodeWith_add (kind rfl h) ..), fun h => cycle (decodeWith_mul (kind rfl h) ..),
      fun h => cycle (decodeWith_push (kind rfl h) ..), fun h => cycle (decodeWith_pop (kind rfl h) ..),
      fun h => cycle (decodeWith_call (kind rfl h) ..), fun h => cycle (decodeWith_ret (kind rfl h) ..),
      fun h => cycle (decodeWith_hlt (kind rfl h) ..),
      fun h => cycle (decodeWith_unrecognized ((decodeKind_eq_unrecognized_iff oc ir).mpr h) ..)⟩

/-! ### A halted core (R76) -/

theorem cycleWith_of_halted (oc : Opcodes) (h : s.run = .halted) : cycleWith oc s = .next s := by
  simp only [cycleWith, h]

/-- A halted core's run of any length ends where it began. -/
theorem core_run_of_halted (h : s.run = .halted) (n : Nat) : Host.Core.run core n s = .next s := by
  induction n with
  | zero => rfl
  | succ n ih => rw [core_run_succ n (cycleWith_of_halted opcodes h), ih]

/-- Settles O17, by induction on the number of steps (`core_run_of_halted`). -/
theorem haltedCoreStaysUnchanged : Obligations.HaltedCoreStaysUnchanged := by
  unfold Obligations.HaltedCoreStaysUnchanged
  exact fun s h => ⟨fun oc => cycleWith_of_halted oc h, core_run_of_halted h, rfl, rfl⟩

/-! ### Stops are precise (R75) -/

theorem raise_sameButStop (k : Stop) (s : State) : SameButStop s (raise k s) := ⟨rfl, rfl, rfl, rfl⟩

/-- An instruction that ends a running core's run does so by a stop alone: each way to complete leaves it
running. -/
theorem Effect.sameButStop (h : Effect i s t) (hs : s.run = .running) (ht : t.run = .halted) :
    SameButStop s t := by
  cases h with
  | regIndex | below | above | hlt | unrecognized => exact raise_sameButStop _ s
  | ldi | prn | add | mul | push | pop | call | ret => cases hs.symm.trans ht

/-- Settles O44: the operand fetch's stop is precise, and so is every instruction's
(`Effect.sameButStop`). -/
theorem stopsArePrecise : Obligations.StopsArePrecise := by
  unfold Obligations.StopsArePrecise
  refine fun s t hs ht => ⟨fun hstep => ?_, fun i h => (exec_effect h).sameButStop hs ht⟩
  obtain ⟨hhalted, -⟩ | ⟨-, -, rfl⟩ | ⟨i, -, he⟩ := step_cases hstep
  · cases hs.symm.trans hhalted
  · exact raise_sameButStop _ s
  · exact he.sameButStop hs ht

/-! ### The register file (R77) -/

/-- Settles O20: a write touches one cell of the register file, and R7's cell is the stack pointer's. -/
theorem registerFileContract : Obligations.RegisterFileContract := by
  unfold Obligations.RegisterFileContract
  exact ⟨fun s r q v => ⟨s.readReg_writeReg r q v, rfl, rfl, rfl, rfl, rfl, rfl⟩,
    fun _ _ body => ⟨fun _ hr => withReg_of_eq hr body, fun ha => withReg_of_ge ha body⟩,
    fun _ _ => ⟨rfl, rfl⟩⟩

/-! ### The ALU (R78) -/

theorem withAlu_of_some {tag : AluTag} {p q : Byte} (h : alu tag p q = some v) (body : Byte → Result) :
    withAlu tag p q s body = body v := by
  simp only [withAlu, h]

theorem withAlu_of_none {tag : AluTag} {p q : Byte} (h : alu tag p q = none) (body : Byte → Result) :
    withAlu tag p q s body = .next (raise (.unsupported tag) s) := by
  simp only [withAlu, h]

/-- With both registers there and the PC in range, the ALU block is the ALU's own check and one write. -/
theorem aluInPlace_eq_withAlu (tag : AluTag) (ha : ra.val = a.toNat) (hb : rb.val = b.toNat)
    (hpc : s.pc.toNat ≤ 252) :
    aluInPlace tag a b s = withAlu tag (s.readReg ra) (s.readReg rb) s fun v =>
      .next ((s.writeReg ra v).setPc (s.pc + 3#8)) := by
  unfold aluInPlace
  rw [withReg_of_eq ha, withReg_of_eq hb, withPcPlus_of_le (by omega)]

/-- Settles O23: the two operations are the exact results modulo 256, and the block is the ALU around one
register write (`aluInPlace_eq_withAlu`). -/
theorem aluContract : Obligations.AluContract := by
  unfold Obligations.AluContract
  refine ⟨fun p q => ⟨_, alu_add p q, BitVec.toNat_add p q⟩,
    fun p q => ⟨_, alu_mul p q, BitVec.toNat_mul p q⟩, fun _ _ _ => rfl,
    fun tag s a b ra rb ha hb hpc => ?_⟩
  rw [aluInPlace_eq_withAlu tag ha hb hpc]
  split
  · next v hv =>
    refine ⟨_, withAlu_of_some hv _, ?_, fun r hr => ?_⟩
    · rw [State.setPc_readReg, State.readReg_writeReg, if_pos rfl]
    · rw [State.setPc_readReg, State.readReg_writeReg, if_neg hr]
  · next hnone => exact withAlu_of_none hnone _

/-! ### Stack-pointer control (R83) -/

theorem exec_push_of_sp_zero (ha : a.toNat < 8) (hsp : s.sp = 0#8) :
    exec (.push a) s = .next (raise (.memAddr (-1)) s) := by
  rw [exec_push, withReg_of_lt ha, withPush_of_zero hsp]

theorem exec_call_of_sp_zero (ha : a.toNat < 8) (hsp : s.sp = 0#8) :
    exec (.call a) s = .next (raise (.memAddr (-1)) s) := by
  rw [exec_call, withReg_of_lt ha, withPush_of_zero hsp]

theorem exec_ret_of_sp_max (hsp : s.sp = 255#8) : exec .ret s = .next (raise (.memAddr 256) s) := by
  rw [exec_ret, withPopped_of_max hsp]

/-- POP stops at 256 when the stack pointer is 255 once the register is loaded: for R7 the byte loaded. -/
theorem exec_pop_of_sp_max (hr : r.val = a.toNat) (hsp : (s.writeReg r (s.readMem s.sp)).sp = 255#8) :
    exec (.pop a) s = .next (raise (.memAddr 256) s) := by
  rw [exec_pop, withReg_of_eq hr, withPopped_of_max hsp]

theorem exec_ldi_completes (hr : r.val = a.toNat) (hpc : s.pc.toNat ≤ 252) :
    exec (.ldi a v) s = .next ((s.writeReg r v).setPc (s.pc + 3#8)) := by
  rw [exec_ldi, withReg_of_eq hr, withPcPlus_of_le (by omega)]

theorem exec_add_completes (ha : ra.val = a.toNat) (hb : rb.val = b.toNat) (hpc : s.pc.toNat ≤ 252) :
    exec (.add a b) s =
      .next ((s.writeReg ra (s.readReg ra + s.readReg rb)).setPc (s.pc + 3#8)) := by
  rw [exec_add, withReg_of_eq ha, withReg_of_eq hb, withPcPlus_of_le (by omega)]

theorem exec_mul_completes (ha : ra.val = a.toNat) (hb : rb.val = b.toNat) (hpc : s.pc.toNat ≤ 252) :
    exec (.mul a b) s =
      .next ((s.writeReg ra (s.readReg ra * s.readReg rb)).setPc (s.pc + 3#8)) := by
  rw [exec_mul, withReg_of_eq ha, withReg_of_eq hb, withPcPlus_of_le (by omega)]

/-- A write to R7 as an ordinary register is the new stack pointer (R11). -/
theorem sp_writeReg_seven_setPc (s : State) (v x : Byte) : ((s.writeReg 7 v).setPc x).sp = v :=
  State.sp_writeSp s v

/-- Settles O25: a stack operation checks its exact new stack pointer before it writes, and a register
write of LDI, ADD and MUL has no such check. -/
theorem stackPointerDoesNotWrap : Obligations.StackPointerDoesNotWrap := by
  unfold Obligations.StackPointerDoesNotWrap
  have seven : (7 : RegIx).val = (7#8 : Byte).toNat := rfl
  refine ⟨fun a s ha hsp => ?_, fun s => exec_ret_of_sp_max, fun a s ha hsp => ?_, fun s htop => ?_,
    fun s v b rb hb hpc => ?_⟩
  · have ha8 : a.toNat < 8 := by omega
    exact ⟨exec_push_of_sp_zero ha8 hsp, exec_call_of_sp_zero ha8 hsp⟩
  · have ha7 : (a == 7#8) = false := beq_eq_false_iff_ne.mpr (by bv_omega)
    exact exec_pop_of_sp_max (r := ⟨a.toNat, by omega⟩) rfl (by rw [sp_writeReg_of_ne _ ha7, hsp])
  · exact exec_pop_of_sp_max seven (by rw [State.sp_writeReg, if_pos rfl, htop])
  · exact ⟨⟨_, exec_ldi_completes seven hpc, sp_writeReg_seven_setPc ..⟩,
      ⟨_, exec_add_completes seven hb hpc, sp_writeReg_seven_setPc ..⟩,
      ⟨_, exec_mul_completes seven hb hpc, sp_writeReg_seven_setPc ..⟩⟩

end Sys2Proof.Machine
end

section
/-! PROOF. LDI and PRN (`41_ldi_prn.md`): the stops of their rules beside the completing cases
`exec_ldi_completes` and `exec_prn_completes`. -/

namespace Sys2Proof.Machine

variable {s : State} {r : RegIx} {a v : Byte}

theorem exec_ldi_of_ge (ha : 8 ≤ a.toNat) : exec (.ldi a v) s = .next (raise (.regIndex a.toNat) s) := by
  rw [exec_ldi, withReg_of_ge ha]

theorem exec_prn_of_ge (ha : 8 ≤ a.toNat) : exec (.prn a) s = .next (raise (.regIndex a.toNat) s) := by
  rw [exec_prn, withReg_of_ge ha]

/-- At 253 the register exists and the fetch is in range, but LDI's advance by 3 is not (R16, R100). -/
theorem exec_ldi_of_pc_253 (hr : r.val = a.toNat) (hpc : s.pc.toNat = 253) :
    exec (.ldi a v) s = .next (raise (.memAddr 256) s) := by
  rw [exec_ldi, withReg_of_eq hr, withPcPlus_of_gt (by omega), hpc]
  rfl

/-- Settles O26: past its register's check LDI is one register write and an advance of the PC
(`exec_ldi_completes`), which at 253 leaves memory (`exec_ldi_of_pc_253`). -/
theorem ldiRule : Obligations.LdiRule := by
  unfold Obligations.LdiRule
  refine ⟨fun _ _ _ => rfl, fun a imm s ha hpc => ?_, fun _ _ _ => exec_ldi_of_ge, fun a imm s ha hpc => ?_⟩
  · have ha8 : a.toNat < 8 := by omega
    refine ⟨_, exec_ldi_completes (r := ⟨a.toNat, ha8⟩) rfl hpc, fun q => ?_, rfl, rfl, rfl, rfl, rfl, rfl⟩
    simp only [State.setPc_readReg, State.readReg_writeReg, Fin.ext_iff]
  · exact exec_ldi_of_pc_253 (r := ⟨a.toNat, by omega⟩) rfl hpc

/-- Settles O27: past its register's check PRN appends one byte to the output and advances the PC
(`exec_prn_completes`). -/
theorem prnRule : Obligations.PrnRule := by
  unfold Obligations.PrnRule
  exact ⟨fun _ _ => rfl,
    fun _ _ _ hr hpc => ⟨_, exec_prn_completes hr hpc, rfl, rfl, rfl, rfl, rfl, rfl, rfl⟩,
    fun _ _ => exec_prn_of_ge⟩

end Sys2Proof.Machine
end

section
/-! PROOF. ADD and MUL (`42_alu.md`): the ALU block's completing case with its frame and its three stops, each
once for any operator tag, since both instructions are that block. -/

namespace Sys2Proof.Machine

variable {s : State} {ra rb : RegIx} {a b v : Byte} {tag : AluTag}

theorem exec_add_eq_aluInPlace : exec (.add a b) s = aluInPlace .add a b s := rfl

theorem exec_mul_eq_aluInPlace : exec (.mul a b) s = aluInPlace .mul a b s := rfl

/-- The block in place: `reg_a` gets the ALU's result on both values as read before the write, and the PC
advances by 3; nothing else changes (R78). -/
theorem aluInPlace_completes (hv : alu tag (s.readReg ra) (s.readReg rb) = some v) (ha : ra.val = a.toNat)
    (hb : rb.val = b.toNat) (hpc : s.pc.toNat ≤ 252) :
    ∃ t, aluInPlace tag a b s = .next t ∧ t.readReg ra = v ∧ (∀ r, r ≠ ra → t.readReg r = s.readReg r) ∧
      t.pc = s.pc + 3#8 ∧ t.mem = s.mem ∧ t.out = s.out ∧ SameStop s t := by
  refine ⟨(s.writeReg ra v).setPc (s.pc + 3#8), ?_, ?_, fun r hr => ?_, rfl, rfl, rfl, rfl, rfl, rfl⟩
  · rw [aluInPlace_eq_withAlu tag ha hb hpc, withAlu_of_some hv]
  · rw [State.setPc_readReg, State.readReg_writeReg, if_pos rfl]
  · rw [State.setPc_readReg, State.readReg_writeReg, if_neg hr]

theorem aluInPlace_of_left_ge (ha : 8 ≤ a.toNat) :
    aluInPlace tag a b s = .next (raise (.regIndex a.toNat) s) :=
  withReg_of_ge ha _

theorem aluInPlace_of_right_ge (ha : a.toNat ≤ 7) (hb : 8 ≤ b.toNat) :
    aluInPlace tag a b s = .next (raise (.regIndex b.toNat) s) := by
  unfold aluInPlace
  rw [withReg_of_lt (by omega), withReg_of_ge hb]

/-- At 253 both registers exist and the fetch is in range, but the block's advance by 3 is not (R16). -/
theorem aluInPlace_of_pc_253 (ha : a.toNat ≤ 7) (hb : b.toNat ≤ 7) (hpc : s.pc.toNat = 253) :
    aluInPlace tag a b s = .next (raise (.memAddr 256) s) := by
  unfold aluInPlace
  rw [withReg_of_lt (by omega), withReg_of_lt (by omega), withPcPlus_of_gt (by omega), hpc]
  rfl

/-- Settles O28: ADD is the ALU block (`exec_add_eq_aluInPlace`), whose sum of two bytes is exact modulo
256. -/
theorem addRule : Obligations.AddRule := by
  unfold Obligations.AddRule
  simp only [exec_add_eq_aluInPlace]
  refine ⟨fun _ _ _ => rfl, fun a b s ra rb ha hb hpc => ?_, fun _ _ _ => aluInPlace_of_left_ge,
    fun _ _ _ => aluInPlace_of_right_ge, fun _ _ _ => aluInPlace_of_pc_253⟩
  obtain ⟨t, hstep, hsum, hframe⟩ := aluInPlace_completes (alu_add (s.readReg ra) (s.readReg rb)) ha hb hpc
  exact ⟨t, hstep, by rw [hsum, BitVec.toNat_add], hframe⟩

/-- Settles O29: MUL is the ALU block (`exec_mul_eq_aluInPlace`), whose product of two bytes is exact modulo
256. -/
theorem mulRule : Obligations.MulRule := by
  unfold Obligations.MulRule
  simp only [exec_mul_eq_aluInPlace]
  refine ⟨fun _ _ _ => rfl, fun a b s ra rb ha hb hpc => ?_, fun _ _ _ => aluInPlace_of_left_ge,
    fun _ _ _ => aluInPlace_of_right_ge, fun _ _ _ => aluInPlace_of_pc_253⟩
  obtain ⟨t, hstep, hprod, hframe⟩ := aluInPlace_completes (alu_mul (s.readReg ra) (s.readReg rb)) ha hb hpc
  exact ⟨t, hstep, by rw [hprod, BitVec.toNat_mul], hframe⟩

end Sys2Proof.Machine
end

section
/-! PROOF. PUSH and POP as whole rules (`43_stack.md`): what the completed states `State.pushed` and
`State.popped` hold in each register, and the stop at an operand that names no register. -/

namespace Sys2Proof.Machine

variable {s : State} {r q : RegIx} {a : Byte}

theorem exec_push_of_ge (ha : 8 ≤ a.toNat) : exec (.push a) s = .next (raise (.regIndex a.toNat) s) := by
  rw [exec_push, withReg_of_ge ha]

theorem exec_pop_of_ge (ha : 8 ≤ a.toNat) : exec (.pop a) s = .next (raise (.regIndex a.toNat) s) := by
  rw [exec_pop, withReg_of_ge ha]

/-- PUSH writes no register but the stack pointer. -/
theorem State.readReg_pushed_of_ne (hq : q ≠ 7) : (s.pushed r).readReg q = s.readReg q :=
  (State.readReg_writeSp ..).trans (if_neg hq)

/-- POP's new stack pointer counts on from the byte it loaded when it loads R7 (R121). -/
theorem State.sp_popped : (s.popped r).sp = (if r = 7 then s.readMem s.sp else s.sp) + 1#8 := by
  rw [State.popped, State.setPc_sp, State.sp_writeSp, State.sp_writeReg]

/-- Beside the stack pointer, POP writes the register it names and no other. -/
theorem State.readReg_popped_of_ne (hq : q ≠ 7) :
    (s.popped r).readReg q = if q = r then s.readMem s.sp else s.readReg q := by
  rw [State.popped, State.setPc_readReg, State.readReg_writeSp, if_neg hq, State.readReg_writeReg]

/-- Settles O30: past its checks PUSH is `State.pushed`, whose address `x[7] - 1` does not wrap because R7 is
not 0; the byte stored there is `State.pushedByte`, read after the decrement. -/
theorem pushRule : Obligations.PushRule := by
  unfold Obligations.PushRule
  refine ⟨fun _ _ => rfl, fun a s ra hr hsp hpc => ?_, fun _ _ => exec_push_of_ge,
    fun a s ha => exec_push_of_sp_zero (by omega)⟩
  have haddr : (s.sp - 1#8).toNat = s.sp.toNat - 1 := by
    have := toNat_sub_one_of_ne_zero hsp
    omega
  refine ⟨s.pushed ra, exec_push_completes hr hsp hpc, ?_, fun _ => State.readReg_pushed_of_ne, fun x => ?_,
    rfl, rfl, rfl, rfl, rfl⟩
  · rw [State.pushed_sp, haddr]
  · rw [State.readMem_pushed, State.pushedByte_eq, ← haddr]
    simp only [BitVec.toNat_inj]

/-- Settles O31: past its checks POP is `State.popped`; which stack pointer it checks and increments is that
of the state its load has reached (`State.sp_writeReg`). -/
theorem popRule : Obligations.PopRule := by
  unfold Obligations.PopRule
  refine ⟨fun _ _ => rfl, fun a s ra hr hsp hpc => ?_, fun _ _ => exec_pop_of_ge, fun a s ra hr hsp => ?_⟩
  · refine ⟨s.popped ra, exec_pop_completes hr (by rwa [State.sp_writeReg]) hpc, ?_,
      fun _ => State.readReg_popped_of_ne, rfl, rfl, rfl, rfl, rfl, rfl⟩
    have hsucc := toNat_add_one_of_ne_max hsp
    rw [State.sp_popped]
    omega
  · exact exec_pop_of_sp_max hr (by rwa [State.sp_writeReg])

end Sys2Proof.Machine
end

section
/-! PROOF. CALL and RET as whole rules (`44_call_ret.md`): the states they leave when they complete, what those
hold, and CALL's stop at an operand that names no register. -/

namespace Sys2Proof.Machine

variable {s : State} {r q : RegIx} {a : Byte}

/-- The state after a CALL that completes: the return address stored below the old stack pointer, and the PC at
the register as read once R7 is decremented (R130). -/
def State.called (s : State) (r : RegIx) : State :=
  ((s.writeSp (s.sp - 1#8)).writeMem (s.sp - 1#8) (s.pc + 2#8)).setPc ((s.writeSp (s.sp - 1#8)).readReg r)

@[simp] theorem State.called_sp : (s.called r).sp = s.sp - 1#8 := State.sp_writeSp ..

/-- CALL R7 jumps to the decremented stack pointer. -/
theorem State.called_pc : (s.called r).pc = if r = 7 then s.sp - 1#8 else s.readReg r :=
  State.readReg_writeSp ..

theorem State.readMem_called (x : Byte) :
    (s.called r).readMem x = if x = s.sp - 1#8 then s.pc + 2#8 else s.readMem x :=
  State.readMem_writeMem ..

/-- CALL writes no register but the stack pointer. -/
theorem State.readReg_called_of_ne (hq : q ≠ 7) : (s.called r).readReg q = s.readReg q :=
  (State.readReg_writeSp ..).trans (if_neg hq)

/-- The state after a RET that completes: the PC at the byte the old stack pointer points at (R131). -/
def State.returned (s : State) : State :=
  (s.writeSp (s.sp + 1#8)).setPc (s.readMem s.sp)

@[simp] theorem State.returned_pc : s.returned.pc = s.readMem s.sp := rfl
@[simp] theorem State.returned_sp : s.returned.sp = s.sp + 1#8 := State.sp_writeSp ..

/-- RET writes no register but the stack pointer. -/
theorem State.readReg_returned_of_ne (hq : q ≠ 7) : s.returned.readReg q = s.readReg q :=
  (State.readReg_writeSp ..).trans (if_neg hq)

theorem exec_call_of_ge (ha : 8 ≤ a.toNat) : exec (.call a) s = .next (raise (.regIndex a.toNat) s) := by
  rw [exec_call, withReg_of_ge ha]

theorem exec_call_completes (hr : r.val = a.toNat) (hsp : s.sp ≠ 0#8) (hpc : s.pc.toNat ≤ 253) :
    exec (.call a) s = .next (s.called r) := by
  rw [exec_call, withReg_of_eq hr, withPush_of_ne hsp, withPcPlus_of_le (by omega)]
  rfl

theorem exec_ret_completes (hsp : s.sp ≠ 255#8) : exec .ret s = .next s.returned := by
  rw [exec_ret, withPopped_of_ne hsp]
  rfl

/-- Settles O32: past its checks CALL is `State.called`, whose address `x[7] - 1` does not wrap because R7 is
not 0; the target is read after the decrement (`State.called_pc`). -/
theorem callRule : Obligations.CallRule := by
  unfold Obligations.CallRule
  refine ⟨fun _ _ => rfl, fun a s ra hr hsp hpc => ?_, fun _ _ => exec_call_of_ge,
    fun a s ha => exec_call_of_sp_zero (by omega)⟩
  have haddr : (s.sp - 1#8).toNat = s.sp.toNat - 1 := by
    have := toNat_sub_one_of_ne_zero hsp
    omega
  refine ⟨s.called ra, exec_call_completes hr hsp hpc, ?_, fun _ => State.readReg_called_of_ne, fun x => ?_,
    State.called_pc, rfl, rfl, rfl, rfl⟩
  · rw [State.called_sp, haddr]
  · rw [State.readMem_called, ← haddr]
    simp only [BitVec.toNat_inj]

/-- Settles O33: past its check RET is `State.returned`, whose stack pointer does not wrap because R7 is not
255. -/
theorem retRule : Obligations.RetRule := by
  unfold Obligations.RetRule
  refine ⟨fun _ => rfl, fun s hsp => ?_, fun _ => exec_ret_of_sp_max⟩
  refine ⟨s.returned, exec_ret_completes hsp, State.returned_pc, ?_, fun _ => State.readReg_returned_of_ne,
    rfl, rfl, rfl, rfl, rfl⟩
  have hsucc := toNat_add_one_of_ne_max hsp
  rw [State.returned_sp]
  omega

end Sys2Proof.Machine
end

section
/-! PROOF. HLT and the unrecognized opcode (`45_halt.md`): the soft stop of a cycle at a byte that is none of
the nine opcodes, and which cycles end in it. -/

namespace Sys2Proof.Machine

variable {oc : Opcodes} {s t : State} {i : Instr} {op : Byte}

/-- Settles O34: HLT is the stop of `exec_hlt` and nothing else, and where an operand address leaves memory
the cycle does not reach it (`cycleWith_of_ge`). -/
theorem hltRule : Obligations.HltRule := by
  unfold Obligations.HltRule
  exact ⟨fun _ => rfl, fun s => ⟨raise .hlt s, exec_hlt s, rfl, rfl, rfl, raise_sameButStop .hlt s⟩,
    fun oc _ => cycleWith_of_ge oc⟩

/-- Where the operand fetch is in range, a byte that is none of the nine opcodes is the soft stop. -/
theorem cycleWith_of_not_mem (hrun : s.run = .running) (hpc : s.pc.toNat ≤ 253)
    (hop : s.readMem s.pc ∉ oc.toList) :
    cycleWith oc s = .next (raise (.unrecognized (s.readMem s.pc)) s) := by
  have hkind := (decodeKind_eq_unrecognized_iff oc (s.readMem s.pc)).mpr hop
  rw [cycleWith_of_decodeWith hrun hpc (decodeWith_unrecognized hkind _), exec_unrecognized]

/-- The byte that an unrecognized instruction carries is the one it was fetched as. -/
theorem Fetches.eq_readMem_of_unrecognized (h : Fetches s (.unrecognized op)) : op = s.readMem s.pc := by
  obtain ⟨-, -, rest, hdec⟩ := h
  obtain ⟨i, rest', hthree, hkind⟩ :=
    decodeWith_three opcodes (s.readMem s.pc) (s.readMem (s.pc + 1#8)) (s.readMem (s.pc + 2#8))
  cases hdec.symm.trans hthree
  cases hdec.symm.trans (decodeWith_unrecognized hkind.symm _)
  rfl

/-- Only the unrecognized instruction ends a running core's run with the cause `UnrecognizedInstruction`. -/
theorem Effect.eq_unrecognized (h : Effect i s t) (hs : s.run = .running) (ht : t.run = .halted)
    (hc : t.cause = .unrecognizedInstruction) :
    ∃ op, i = .unrecognized op ∧ t = raise (.unrecognized op) s := by
  cases h with
  | @unrecognized _ op => exact ⟨op, rfl, rfl⟩
  | regIndex | below | above | hlt => cases hc
  | ldi | prn | add | mul | push | pop | call | ret => cases hs.symm.trans ht

/-- Settles O35: the cycle is the operand fetch's stop or the soft stop (`cycleWith_of_not_mem`), and a step
that ends with this cause was the unrecognized instruction (`Effect.eq_unrecognized`), fetched at the PC. -/
theorem unrecognizedRule : Obligations.UnrecognizedRule := by
  unfold Obligations.UnrecognizedRule
  refine ⟨fun op s => ⟨raise (.unrecognized op) s, exec_unrecognized s op, rfl, rfl, rfl,
    raise_sameButStop _ s⟩, fun oc s hrun hop => ?_, fun s t hs hstep ht hc => ?_⟩
  · split_ifs with hpc
    · exact cycleWith_of_not_mem hrun hpc hop
    · exact cycleWith_of_ge oc hrun (by omega)
  · obtain ⟨hhalted, -⟩ | ⟨-, -, rfl⟩ | ⟨i, hf, he⟩ := step_cases hstep
    · cases hs.symm.trans hhalted
    · cases hc
    · obtain ⟨op, rfl, rfl⟩ := he.eq_unrecognized hs ht hc
      rw [← hf.eq_readMem_of_unrecognized]
      rfl

end Sys2Proof.Machine
end

section
/-! PROOF. Stops (`60_exceptions.md`): what a stop records, that no cycle causes `UnsupportedOperation`, and
which of the stops that apply is the one reported. -/

namespace Sys2Proof.Machine

variable {s t u : State} {i : Instr} {a x : Byte} {c : Bool} {k : Stop} {rows : List (Bool × Stop)}
  {r : Result} {done : State → Prop}

/-! ### What a stop records (R150, R158) -/

/-- Settles O43: a stop is precise (`raise_sameButStop`), and records its own cause and information. -/
theorem raiseSetsRunCauseInfoOnly : Obligations.RaiseSetsRunCauseInfoOnly := by
  unfold Obligations.RaiseSetsRunCauseInfoOnly
  exact ⟨fun k s => ⟨raise_run s k, raise_sameButStop k s⟩,
    fun _ => ⟨⟨rfl, rfl⟩, fun _ => ⟨rfl, rfl⟩, fun _ => ⟨rfl, rfl⟩, fun _ => ⟨rfl, rfl⟩,
      fun _ => ⟨rfl, rfl⟩⟩⟩

/-! ### `UnsupportedOperation` (R153) -/

/-- No instruction causes `UnsupportedOperation`: its stops have other causes, and completing leaves the cause
as it was. -/
theorem Effect.cause_eq_unsupportedOperation (h : Effect i s t) (hc : t.cause = .unsupportedOperation) :
    s.cause = .unsupportedOperation := by
  cases h with
  | regIndex | below | above | hlt | unrecognized => cases hc
  | ldi | prn | add | mul | push | pop | call | ret => exact hc

/-- Settles O24: the ALU has no result for another tag, and neither the operand fetch's stop nor an
instruction (`Effect.cause_eq_unsupportedOperation`) has this cause. -/
theorem unsupportedOperationUnreachable : Obligations.UnsupportedOperationUnreachable := by
  unfold Obligations.UnsupportedOperationUnreachable
  refine ⟨fun n p q s body => withAlu_of_none rfl body, fun s t hstep hc => ?_⟩
  obtain ⟨-, rfl⟩ | ⟨-, -, rfl⟩ | ⟨i, -, he⟩ := step_cases hstep
  · exact hc
  · cases hc
  · exact he.cause_eq_unsupportedOperation hc

/-! ### The first row that applies (R157)

A rule reports a list of rows when it ends in the stop of the first row that applies and, when none does, in a
state of which `done` holds. Each check reports one row in front of those that the rest of its rule reports, so
a rule's rows are read off its checks. -/

/-- The stop of the first row that applies. -/
def firstApplicable (rows : List (Bool × Stop)) : Option Stop :=
  (rows.find? fun row => row.1).map fun row => row.2

theorem firstStop_eq_firstApplicable (s : State) : firstStop s = firstApplicable (stopRows s) := rfl

@[simp] theorem firstApplicable_nil : firstApplicable [] = none := rfl

@[simp] theorem firstApplicable_cons (c : Bool) (k : Stop) (rows : List (Bool × Stop)) :
    firstApplicable ((c, k) :: rows) = if c then some k else firstApplicable rows := by
  cases c <;> rfl

/-- `r` is the given stop of `s`, or without one a next state of which `done` holds. -/
def Reports (s : State) (done : State → Prop) (r : Result) : Option Stop → Prop
  | some k => r = .next (raise k s)
  | none => ∃ t, r = .next t ∧ done t

/-- A result that is the stop of a row that applies, and else reports the later rows. -/
theorem Reports.cons (hstop : c = true → r = .next (raise k s))
    (hgo : c = false → Reports s done r (firstApplicable rows)) :
    Reports s done r (firstApplicable ((c, k) :: rows)) := by
  rw [firstApplicable_cons]
  cases c with
  | true => exact hstop rfl
  | false => exact hgo rfl

theorem Reports.completes (h : done t) : Reports s done (.next t) (firstApplicable []) := ⟨t, rfl, h⟩

/-! ### The row of each check -/

/-- A register operand that does not exist (R13). -/
def regRow (a : Byte) : Bool × Stop := (decide (a.toNat > 7), .regIndex a.toNat)

/-- A push-type operation at stack pointer 0 (R83). -/
def pushRow (s : State) : Bool × Stop := (decide (s.sp = 0#8), .memAddr (-1))

/-- A pop-type operation whose stack pointer to increment is 255 (R83). -/
def popRow (sp : Byte) : Bool × Stop := (decide (sp = 255#8), .memAddr 256)

/-- An advance of the PC by 3 that leaves memory (R80). -/
def advanceRow (s : State) : Bool × Stop := (decide (s.pc.toNat + 3 > 255), .memAddr (s.pc.toNat + 3))

theorem Reports.of_withReg {body : RegIx → Result}
    (h : ∀ ha : a.toNat < 8, Reports s done (body ⟨a.toNat, ha⟩) (firstApplicable rows)) :
    Reports s done (withReg a s body) (firstApplicable (regRow a :: rows)) := by
  refine .cons (fun hc => withReg_of_ge (of_decide_eq_true hc) body) fun hc => ?_
  have ha : a.toNat < 8 := by simpa [Nat.lt_succ_iff] using hc
  rw [withReg_of_lt ha]
  exact h ha

theorem Reports.of_withPush {body : Byte → State → Result}
    (h : Reports s done (body (s.sp - 1#8) (s.writeSp (s.sp - 1#8))) (firstApplicable rows)) :
    Reports s done (withPush s body) (firstApplicable (pushRow s :: rows)) := by
  refine .cons (fun hc => withPush_of_zero (of_decide_eq_true hc) body) fun hc => ?_
  rw [withPush_of_ne (of_decide_eq_false hc)]
  exact h

theorem Reports.of_withPopped {body : State → Result} (hx : u.sp = x)
    (h : Reports s done (body (u.writeSp (u.sp + 1#8))) (firstApplicable rows)) :
    Reports s done (withPopped s u body) (firstApplicable (popRow x :: rows)) := by
  subst hx
  refine .cons (fun hc => withPopped_of_max (of_decide_eq_true hc) body) fun hc => ?_
  rw [withPopped_of_ne (of_decide_eq_false hc)]
  exact h

theorem Reports.of_advance {body : Byte → Result}
    (h : Reports s done (body (s.pc + 3#8)) (firstApplicable rows)) :
    Reports s done (withPcPlus 3 s body) (firstApplicable (advanceRow s :: rows)) := by
  refine .cons (fun hc => withPcPlus_of_gt (of_decide_eq_true hc) body) fun hc => ?_
  have hle : ¬ s.pc.toNat + 3 > 255 := of_decide_eq_false hc
  rw [withPcPlus_of_le (by omega)]
  exact h

/-! ### Each instruction's rows -/

/-- The rows of an instruction whose operand fetch is in range, in the order of its checks. -/
def checkRows (s : State) : Instr → List (Bool × Stop)
  | .ldi a _ => [regRow a, advanceRow s]
  | .prn a => [regRow a]
  | .add a b | .mul a b => [regRow a, regRow b, advanceRow s]
  | .push a | .call a => [regRow a, pushRow s]
  | .pop a => [regRow a, popRow (if a = 7#8 then s.readMem s.sp else s.sp)]
  | .ret => [popRow s.sp]
  | .hlt => []
  | .unrecognized op => [(true, .unrecognized op)]

/-- How an instruction completes: HLT as the normal stop, any other without a change of the run state. -/
def CompletesTo (s : State) : Instr → State → Prop
  | .hlt, t => t = raise .hlt s
  | _, t => t.run = s.run

/-- The stack pointer once POP has loaded its register (R121). -/
theorem sp_load (ha : a.toNat < 8) (v : Byte) :
    (s.writeReg ⟨a.toNat, ha⟩ v).sp = if a = 7#8 then v else s.sp := by
  have h7 : (⟨a.toNat, ha⟩ : RegIx) = 7 ↔ a = 7#8 := by
    rw [Fin.ext_iff, ← BitVec.toNat_inj]
    rfl
  simp only [State.sp_writeReg, h7]

/-- An instruction reports its rows: where the operand fetch is in range, the sum `pc + 2` cannot stop it. -/
theorem exec_reports (hpc : s.pc.toNat ≤ 253) (i : Instr) :
    Reports s (CompletesTo s i) (exec i s) (firstApplicable (checkRows s i)) := by
  have hpc2 : s.pc.toNat + 2 ≤ 255 := by omega
  cases i with
  | ldi a v =>
    rw [exec_ldi]
    exact .of_withReg fun _ => .of_advance (.completes rfl)
  | prn a =>
    simp only [exec_prn, withPcPlus_of_le hpc2]
    exact .of_withReg fun _ => .completes rfl
  | add a b =>
    rw [exec_add]
    exact .of_withReg fun _ => .of_withReg fun _ => .of_advance (.completes rfl)
  | mul a b =>
    rw [exec_mul]
    exact .of_withReg fun _ => .of_withReg fun _ => .of_advance (.completes rfl)
  | push a =>
    simp only [exec_push, withPcPlus_of_le hpc2]
    exact .of_withReg fun _ => .of_withPush (.completes rfl)
  | pop a =>
    simp only [exec_pop, withPcPlus_of_le hpc2]
    exact .of_withReg fun ha => .of_withPopped (sp_load ha _) (.completes rfl)
  | call a =>
    simp only [exec_call, withPcPlus_of_le hpc2]
    exact .of_withReg fun _ => .of_withPush (.completes rfl)
  | ret =>
    rw [exec_ret]
    exact .of_withPopped rfl (.completes rfl)
  | hlt => exact .completes rfl
  | unrecognized op => exact .cons (fun _ => rfl) nofun

/-! ### The rows of a cycle -/

/-- The instruction of a kind, as the decoder makes it from the three fetched bytes (R51, R73). -/
def instrOfKind (ir a b : Byte) : Kind → Instr
  | .ldi => .ldi a b
  | .prn => .prn a
  | .add => .add a b
  | .mul => .mul a b
  | .push => .push a
  | .pop => .pop a
  | .call => .call a
  | .ret => .ret
  | .hlt => .hlt
  | .unrecognized => .unrecognized ir

theorem decodeWith_eq_instrOfKind (oc : Opcodes) (ir a b : Byte) :
    ∃ rest, decodeWith oc [ir, a, b] = .instr (instrOfKind ir a b (decodeKind oc ir)) rest := by
  cases h : decodeKind oc ir <;> simp only [decodeWith, h] <;> exact ⟨_, rfl⟩

/-- The instruction that a running core executes next where the operand fetch is in range (R70). -/
def nextInstr (s : State) : Instr :=
  instrOfKind (s.readMem s.pc) (s.readMem (s.pc + 1#8)) (s.readMem (s.pc + 2#8))
    (decodeKind opcodes (s.readMem s.pc))

theorem fetches_nextInstr (hrun : s.run = .running) (hpc : s.pc.toNat ≤ 253) : Fetches s (nextInstr s) :=
  ⟨hrun, hpc, decodeWith_eq_instrOfKind opcodes _ _ _⟩

theorem firstStop_of_ge (hpc : 254 ≤ s.pc.toNat) : firstStop s = some (.memAddr 256) := by
  have hlt := s.pc.isLt
  rw [firstStop_eq_firstApplicable]
  obtain h | h : s.pc.toNat = 254 ∨ s.pc.toNat = 255 := by omega
  · simp [stopRows, h]
  · simp [stopRows, h]

theorem toNat_eq_max_iff : x.toNat = 255 ↔ x = 255#8 := by
  rw [← BitVec.toNat_inj]
  rfl

/-- Where the operand fetch is in range, the rows of R157 that can apply are those of the instruction. -/
theorem firstStop_of_le (hpc : s.pc.toNat ≤ 253) :
    firstStop s = firstApplicable (checkRows s (nextInstr s)) := by
  rw [firstStop_eq_firstApplicable]
  have h1 : ¬ s.pc.toNat + 1 > 255 := by omega
  have h2 : ¬ s.pc.toNat + 2 > 255 := by omega
  unfold stopRows nextInstr
  cases hk : decodeKind opcodes (s.readMem s.pc) with
  | pop =>
    by_cases h7 : s.readMem (s.pc + 1#8) = 7#8 <;>
      simp [h1, h2, hk, h7, instrOfKind, checkRows, regRow, popRow, toNat_eq_max_iff]
  | _ =>
    simp [h1, h2, hk, instrOfKind, checkRows, regRow, pushRow, popRow, advanceRow, toNat_eq_max_iff]

theorem opcodes_valid : opcodes.Valid := by decide

/-- The next instruction completes as HLT does exactly when the opcode byte is HLT's number (R62, R73). -/
theorem completesTo_nextInstr (hrun : s.run = .running) :
    CompletesTo s (nextInstr s) t ↔
      if s.readMem s.pc = opcodes.hlt then t = raise .hlt s else t.run = .running := by
  have hhlt := decodeKind_eq_iff (ir := s.readMem s.pc) opcodes_valid (show numberOf opcodes .hlt = _ from rfl)
  unfold nextInstr
  by_cases hop : s.readMem s.pc = opcodes.hlt
  · rw [if_pos hop, hhlt.mpr hop]
    rfl
  · rw [if_neg hop, ← hrun]
    cases hk : decodeKind opcodes (s.readMem s.pc) with
    | hlt => exact absurd (hhlt.mp hk) hop
    | _ => rfl

/-- Settles O45: at 254 and 255 an operand fetch's row is the first that applies, and is the cycle's stop
(`firstStop_of_ge`, `cycleWith_of_ge`); below that the rows that can apply are those of the instruction fetched
(`firstStop_of_le`), in the order in which its checks report them (`exec_reports`). -/
theorem firstApplicableStopIsReported : Obligations.FirstApplicableStopIsReported := by
  unfold Obligations.FirstApplicableStopIsReported
  intro s hrun
  by_cases hpc : s.pc.toNat ≤ 253
  · have hrep := exec_reports hpc (nextInstr s)
    rw [firstStop_of_le hpc, step_of_fetches (fetches_nextInstr hrun hpc)]
    simp only [← completesTo_nextInstr hrun]
    exact hrep
  · have hge : 254 ≤ s.pc.toNat := by omega
    rw [firstStop_of_ge hge]
    exact cycleWith_of_ge opcodes hrun hge

end Sys2Proof.Machine
end

section
/-! PROOF. Reset and load of `70_reset_and_hazards.md`: what the first cycle after them runs. -/

namespace Sys2Proof.Machine

variable {t : State} {i : Instr} {image rest : List Byte}

/-- A launch state has the PC of reset (R181, R182). -/
theorem launch_pc (h : launch image = some t) : t.pc = 0#8 := by
  rw [launch_eq h]
  rfl

/-- A launch state is running, as reset leaves it (R23). -/
theorem launch_run (h : launch image = some t) : t.run = .running := by
  rw [launch_eq h]
  rfl

/-- At a launch state the three bytes the cycle fetches are the image's first three (R181). -/
theorem fetches_of_launch (h : launch image = some t)
    (hdec : decode [image.getD 0 0#8, image.getD 1 0#8, image.getD 2 0#8] = .instr i rest) :
    Fetches t i := by
  refine ⟨launch_run h, ?_, rest, ?_⟩
  · rw [launch_pc h]
    decide
  · rw [launch_pc h, launch_readMem h, launch_readMem h, launch_readMem h]
    exact hdec

/-- Settles O3: a launch state fetches what the image's first three bytes decode to (`fetches_of_launch`), and a
step is `exec` of the instruction fetched. -/
theorem firstCycleFetchesAtZero : Obligations.FirstCycleFetchesAtZero := by
  unfold Obligations.FirstCycleFetchesAtZero
  exact fun _ _ _ _ h hdec => ⟨launch_pc h, step_of_fetches (fetches_of_launch h hdec)⟩

end Sys2Proof.Machine
end

section
/-! PROOF. The decoder and the encoder against each other (`30_encoding.md`), and the default opcode
numbers. -/

namespace Sys2Proof.Machine

variable {oc : Opcodes} {s : State} {i : Instr} {k : Kind} {ir x : Byte} {bytes rest : List Byte}

/-! ### Decode of encode -/

theorem wfFor_unrecognized_iff (oc : Opcodes) (op : Byte) :
    (Instr.unrecognized op).wfFor oc = true ↔ op ∉ oc.toList := by
  simp only [Instr.wfFor, Bool.not_eq_true', List.contains_eq_mem, decide_eq_false_iff_not]

/-- Settles O9: with valid numbers an instruction's first byte is recognised as its kind
(`decodeKind_of_numberOf`), and the decoder's equation of that kind takes the operand bytes back off. -/
theorem encodedInstructionDecodes : Obligations.EncodedInstructionDecodes := by
  unfold Obligations.EncodedInstructionDecodes
  intro oc hv i hwf rest
  cases i with
  | ldi a b => exact decodeWith_ldi (decodeKind_of_numberOf hv rfl) a b rest
  | prn a => exact decodeWith_prn (decodeKind_of_numberOf hv rfl) a rest
  | add a b => exact decodeWith_add (decodeKind_of_numberOf hv rfl) a b rest
  | mul a b => exact decodeWith_mul (decodeKind_of_numberOf hv rfl) a b rest
  | push a => exact decodeWith_push (decodeKind_of_numberOf hv rfl) a rest
  | pop a => exact decodeWith_pop (decodeKind_of_numberOf hv rfl) a rest
  | call a => exact decodeWith_call (decodeKind_of_numberOf hv rfl) a rest
  | ret => exact decodeWith_ret (decodeKind_of_numberOf hv rfl) rest
  | hlt => exact decodeWith_hlt (decodeKind_of_numberOf hv rfl) rest
  | unrecognized op =>
    have hop : op ∉ oc.toList := (wfFor_unrecognized_iff oc op).mp hwf
    exact decodeWith_unrecognized ((decodeKind_eq_unrecognized_iff oc op).mpr hop) rest

/-! ### Encode of decode -/

/-- Valid or not, the numbers give a recognised byte back: it was compared for equality (R73). -/
theorem eq_of_decodeKind (h : decodeKind oc ir = k) (hk : numberOf oc k = some x) : ir = x := by
  subst h
  obtain hir | hun := numberOf_decodeKind oc ir
  · exact Option.some.inj (hir.symm.trans hk)
  · rw [hun] at hk
    cases hk

/-- What the decoder accepts is the encoding of a well-formed instruction and the bytes left over. -/
theorem eq_encodeWith_append (h : decodeWith oc bytes = .instr i rest) :
    bytes = encodeWith oc i ++ rest ∧ i.wfFor oc = true := by
  cases bytes with
  | nil => cases h
  | cons ir bytes =>
    have hnum {k : Kind} {x : Byte} (hk : decodeKind oc ir = k) (hx : numberOf oc k = some x) : ir = x :=
      eq_of_decodeKind hk hx
    unfold decodeWith at h
    dsimp only at h
    split at h
    -- The unrecognized arm: its encoding is the byte itself. In the others the first byte is a number.
    case h_10 _ hk =>
      cases h
      exact ⟨rfl, (wfFor_unrecognized_iff oc ir).mpr ((decodeKind_eq_unrecognized_iff oc ir).mp hk)⟩
    all_goals cases h
    all_goals exact ⟨congrArg (· :: _) (hnum ‹_› rfl), rfl⟩

/-- Settles O10: a byte recognised as one of the nine kinds is that kind's number (`eq_of_decodeKind`), and one
that is not is none of the nine. -/
theorem decodedBytesAreEncoding : Obligations.DecodedBytesAreEncoding := by
  unfold Obligations.DecodedBytesAreEncoding
  exact fun _ _ _ _ => eq_encodeWith_append

/-- The instruction a cycle fetches is well formed. -/
theorem Fetches.wf (h : Fetches s i) : i.wfFor opcodes = true := by
  obtain ⟨-, -, rest, hdec⟩ := h
  exact (eq_encodeWith_append hdec).2

/-! ### The default numbers (R53, R62) -/

/-- Settles O7, by evaluation of the nine numbers. -/
theorem defaultOpcodesValid : Obligations.DefaultOpcodesValid := by
  unfold Obligations.DefaultOpcodesValid
  exact ⟨rfl, opcodes_valid⟩

/-- Settles O8, by running the decoder on each word. -/
theorem sampleWordsDecode : Obligations.SampleWordsDecode := by
  unfold Obligations.SampleWordsDecode
  decide

/-- The nine default numbers in rising order. -/
theorem opcodes_toList_perm : opcodes.toList.Perm
    [0x01#8, 0x11#8, 0x45#8, 0x46#8, 0x47#8, 0x50#8, 0x82#8, 0xA0#8, 0xA2#8] := by
  decide

/-- Settles O12: a byte is unrecognized when it is none of the nine numbers
(`decodeKind_eq_unrecognized_iff`), and fetched as an opcode it is the soft stop (`cycleWith_of_not_mem`). -/
theorem everyOtherOpcodeByteIsUnrecognized : Obligations.EveryOtherOpcodeByteIsUnrecognized := by
  unfold Obligations.EveryOtherOpcodeByteIsUnrecognized
  refine ⟨fun _ _ => cycleWith_of_not_mem, fun ir => ?_, by decide +kernel⟩
  rw [decodeKind_eq_unrecognized_iff, opcodes_toList_perm.mem_iff]

end Sys2Proof.Machine
end

section
/-! PROOF. The invariant of the machine's state, from reset and launch along every step, and the ends of a run
(`60_exceptions.md`, `70_reset_and_hazards.md`): every stop of a cycle, said once. -/

namespace Sys2Proof.Machine

variable {s t : State} {i : Instr} {k : Stop} {image : List Byte}

/-! ### Launch -/

/-- An image that fits has its launch state (R182). -/
theorem exists_launch (h : image.length ≤ 256) : ∃ t, launch image = some t := ⟨_, if_pos h⟩

/-- Settles O2: the launch state is reset with the image placed (`launch_eq`, `launch_readMem`), and that of
the empty image fetches 0x00, which is none of the nine opcodes. -/
theorem launchStateOfImage : Obligations.LaunchStateOfImage := by
  unfold Obligations.LaunchStateOfImage
  refine ⟨fun image h => ?_, fun image h => if_neg (Nat.not_le.mpr h), State.reset, rfl, ?_⟩
  · obtain ⟨t, ht⟩ := exists_launch h
    refine ⟨t, ht, launch_readMem ht, ?_⟩
    rw [launch_eq ht]
    exact ⟨rfl, rfl, rfl, rfl, rfl, rfl⟩
  · exact cycleWith_of_not_mem (oc := opcodes) (s := State.reset) rfl (by decide) (by decide)

/-- Settles O5: reset's own run state, and memory in canonical form because placing keeps it. -/
theorem launchSatisfiesInvariant : Obligations.LaunchSatisfiesInvariant := by
  unfold Obligations.LaunchSatisfiesInvariant
  intro image t h
  rw [launch_eq h]
  exact ⟨Memory.wf_memPlace State.reset_mem_wf, rfl⟩

/-- Settles O4, by evaluation of the reset state. -/
theorem resetSatisfiesInvariant : Obligations.ResetSatisfiesInvariant := by
  unfold Obligations.ResetSatisfiesInvariant
  exact ⟨State.reset_mem_wf, rfl⟩

/-! ### Every cycle answers -/

/-- A result that reports rows is a next state, whichever row applies. -/
theorem Reports.exists_next {done : State → Prop} {r : Result} {o : Option Stop} (h : Reports s done r o) :
    ∃ t, r = .next t := by
  cases o with
  | some k => exact ⟨raise k s, h⟩
  | none =>
    obtain ⟨t, ht, -⟩ := h
    exact ⟨t, ht⟩

/-- Settles O18: a halted core and the operand fetch's stop answer next, and elsewhere the three bytes decode to
an instruction, which reports a stop or completes (`exec_reports`). -/
theorem everyStepAnswersNext : Obligations.EveryStepAnswersNext := by
  unfold Obligations.EveryStepAnswersNext
  intro oc s
  cases hrun : s.run with
  | halted => exact ⟨s, cycleWith_of_halted oc hrun⟩
  | running =>
    by_cases hpc : s.pc.toNat ≤ 253
    · obtain ⟨i, rest, hdec, -⟩ :=
        decodeWith_three oc (s.readMem s.pc) (s.readMem (s.pc + 1#8)) (s.readMem (s.pc + 2#8))
      rw [cycleWith_of_decodeWith hrun hpc hdec]
      exact (exec_reports hpc i).exists_next
    · exact ⟨_, cycleWith_of_ge oc hrun (by omega)⟩

/-! ### The stops of a cycle -/

/-- The stops that a cycle at `s` can end in, each with what it records (R150). -/
def CycleStop (s : State) : Stop → Prop
  | .hlt => Fetches s .hlt
  | .unrecognized op => Fetches s (.unrecognized op)
  | .memAddr x => x = -1 ∨ x = 256
  | .regIndex n => 8 ≤ n ∧ n ≤ 255
  | .unsupported _ => False

/-- A step leaves the run state as it was, or is one of these stops. -/
theorem step_stop (h : step s = .next t) : SameStop s t ∨ ∃ k, CycleStop s k ∧ t = raise k s := by
  obtain ⟨-, rfl⟩ | ⟨-, -, rfl⟩ | ⟨i, hf, he⟩ := step_cases h
  · exact .inl ⟨rfl, rfl, rfl⟩
  · exact .inr ⟨.memAddr 256, .inr rfl, rfl⟩
  · cases he with
    | ldi | prn | add | mul | push | pop | call | ret => exact .inl ⟨rfl, rfl, rfl⟩
    | regIndex n hn => exact .inr ⟨.regIndex n, hn, rfl⟩
    | below => exact .inr ⟨.memAddr (-1), .inl rfl, rfl⟩
    | above n hn => exact .inr ⟨.memAddr n, .inr (hn hf.2.1), rfl⟩
    | hlt => exact .inr ⟨.hlt, hf, rfl⟩
    | @unrecognized _ op => exact .inr ⟨.unrecognized op, hf, rfl⟩

/-- Settles O46: the stops of a cycle (`step_stop`) are the three ways of the section. -/
theorem runEndsInThreeWays : Obligations.RunEndsInThreeWays := by
  unfold Obligations.RunEndsInThreeWays
  intro s t hs hstep
  obtain ⟨hrun, -, -⟩ | ⟨k, hk, rfl⟩ := step_stop hstep
  · exact .inl (hrun.trans hs)
  · cases k with
    | hlt => exact .inr (.inl ⟨hk, rfl⟩)
    | unrecognized op => exact .inr (.inr (.inl ⟨op, hk, rfl⟩))
    | memAddr x => exact .inr (.inr (.inr (.inl ⟨x, hk, rfl⟩)))
    | regIndex n => exact .inr (.inr (.inr (.inr ⟨n, hk.1, hk.2, rfl⟩)))
    | unsupported => exact hk.elim

/-- Settles O47: of the stops of a cycle (`step_stop`) only HLT's records the cause HLT, and the rule of HLT is
that stop. -/
theorem goodEndExactlyByHlt : Obligations.GoodEndExactlyByHlt := by
  unfold Obligations.GoodEndExactlyByHlt
  refine fun s t hs hstep => ⟨fun ⟨hhalted, hcause⟩ => ?_, fun hf => ?_⟩
  · obtain ⟨hrun, -, -⟩ | ⟨k, hk, rfl⟩ := step_stop hstep
    · cases hhalted.symm.trans (hrun.trans hs)
    · cases k with
      | hlt => exact hk
      | unrecognized | memAddr | regIndex | unsupported => cases hcause
  · rw [step_of_fetches hf, exec_hlt] at hstep
    cases hstep
    exact ⟨rfl, rfl⟩

/-! ### The invariant -/

/-- A stop of a cycle is recorded as R18 and R150 tabulate it. -/
theorem stopRecorded_of_cycleStop (h : CycleStop s k) : stopRecorded .halted k.cause k.info = true := by
  cases k with
  | hlt => rfl
  | unrecognized op => exact h.wf
  | memAddr x =>
    obtain rfl | rfl := h
    · rfl
    · rfl
  | regIndex n =>
    have hn : 8 ≤ n ∧ n ≤ 255 := h
    simpa [stopRecorded, Stop.cause, Stop.info] using hn
  | unsupported => exact h.elim

/-- Every step keeps the run state recorded. -/
theorem step_keeps_stopRecorded (hs : stopRecorded s.run s.cause s.info = true) (h : step s = .next t) :
    stopRecorded t.run t.cause t.info = true := by
  obtain ⟨hrun, hcause, hinfo⟩ | ⟨k, hk, rfl⟩ := step_stop h
  · rwa [hrun, hcause, hinfo]
  · exact stopRecorded_of_cycleStop hk

/-- An instruction keeps memory canonical: PUSH and CALL store one byte, and no other rule writes memory. -/
theorem Effect.mem_wf (h : Effect i s t) (hs : s.mem.wf = true) : t.mem.wf = true := by
  cases h with
  | push | call => exact Memory.wf_memWrite hs
  | _ => exact hs

/-- Every step keeps memory canonical. -/
theorem step_keeps_mem_wf (hs : s.mem.wf = true) (h : step s = .next t) : t.mem.wf = true := by
  obtain ⟨-, rfl⟩ | ⟨-, -, rfl⟩ | ⟨i, -, he⟩ := step_cases h
  · exact hs
  · exact hs
  · exact he.mem_wf hs

/-- Settles O6: each clause of the invariant is kept by every step (`step_keeps_mem_wf`,
`step_keeps_stopRecorded`). -/
theorem stepKeepsInvariant : Obligations.StepKeepsInvariant := by
  unfold Obligations.StepKeepsInvariant
  exact fun s t ⟨hmem, hstop⟩ h => ⟨step_keeps_mem_wf hmem h, step_keeps_stopRecorded hstop h⟩

end Sys2Proof.Machine
end

section
/-! PROOF. What an instruction leaves unchanged: the registers it does not write, and memory but for the byte
that PUSH and CALL store (`10_state.md` §1, `20_memory.md`). -/

namespace Sys2Proof.Machine

variable {s t : State} {i : Instr} {r q : RegIx} {a b x : Byte}

/-! ### Memory (R31, R32) -/

/-- A computed address that is a byte is used as it is (R45). -/
theorem withAddr_of_eq {y : Byte} {z : Int} (h : (y.toNat : Int) = z) (body : Byte → Result) :
    withAddr z s body = body y := by
  subst h
  have hlt := y.isLt
  rw [withAddr_of_mem (by omega) (by omega), BitVec.ofInt_natCast, BitVec.ofNat_toNat, BitVec.setWidth_eq]

/-- Settles O22: a store is one byte of memory (`State.readMem_writeMem`), and an address is used or stops the
cycle by the one check of computed addresses. -/
theorem memoryReadWriteContract : Obligations.MemoryReadWriteContract := by
  unfold Obligations.MemoryReadWriteContract
  refine ⟨fun s x y v => ⟨State.readMem_writeMem x y v, rfl, rfl, rfl, rfl, rfl, rfl⟩,
    fun s x body => ⟨fun y hy => withAddr_of_eq hy body, fun hx => ?_⟩⟩
  obtain hneg | hgt := hx
  · exact withAddr_of_neg hneg body
  · exact withAddr_of_gt hgt body

/-! ### The run state -/

/-- An instruction leaves the run state as it was, or is a stop and leaves everything else. -/
theorem Effect.sameStop_or_sameButStop (h : Effect i s t) :
    SameStop s t ∨ t.run = .halted ∧ SameButStop s t := by
  cases h with
  | regIndex | below | above | hlt | unrecognized => exact .inr ⟨rfl, raise_sameButStop _ s⟩
  | ldi | prn | add | mul | push | pop | call | ret => exact .inl ⟨rfl, rfl, rfl⟩

/-! ### Registers -/

/-- The registers an instruction writes when it completes, in the table of R25. -/
def writesReg : Instr → RegIx → Bool
  | .ldi a _, r | .add a _, r | .mul a _, r => a.toNat == r.val
  | .pop a, r => a.toNat == r.val || r == 7
  | .push _, r | .call _, r | .ret, r => r == 7
  | .prn _, _ | .hlt, _ | .unrecognized _, _ => false

theorem readReg_writeReg_of_val_ne {ha : a.toNat < 8} (h : (a.toNat == q.val) = false) (v : Byte) :
    (s.writeReg ⟨a.toNat, ha⟩ v).readReg q = s.readReg q := by
  rw [State.readReg_writeReg, if_neg fun hq => ?_]
  rw [hq] at h
  exact absurd rfl (beq_eq_false_iff_ne.mp h)

theorem readReg_writeSp_of_ne (h : (q == 7) = false) (v : Byte) :
    (s.writeSp v).readReg q = s.readReg q := by
  rw [State.readReg_writeSp, if_neg (beq_eq_false_iff_ne.mp h)]

/-- An instruction leaves the registers it does not write, whether it completes or stops. -/
theorem Effect.readReg_eq (h : Effect i s t) (hr : writesReg i r = false) :
    t.readReg r = s.readReg r := by
  cases h with
  | regIndex | below | above | prn | hlt | unrecognized => rfl
  | ldi | add | mul => exact readReg_writeReg_of_val_ne hr _
  | push | call | ret => exact readReg_writeSp_of_ne hr _
  | pop =>
    obtain ⟨ha, h7⟩ := Bool.or_eq_false_iff.mp hr
    exact (readReg_writeSp_of_ne h7 _).trans (readReg_writeReg_of_val_ne ha _)

/-! ### Bytes of memory -/

/-- PUSH or CALL stores at `x` the byte that the memory `t` holds there (R120, R130). -/
def StoresAt (i : Instr) (s t : State) (x : Byte) : Prop :=
  (x.toNat : Int) = (s.sp.toNat : Int) - 1 ∧
    ((∃ (a : Byte) (r : RegIx), r.val = a.toNat ∧ i = .push a ∧ t.readMem x = s.pushedByte r) ∨
      ∃ a, i = .call a ∧ t.readMem x = s.pc + 2#8)

/-- An instruction leaves every byte of memory but the one that PUSH and CALL store. -/
theorem Effect.readMem_eq (h : Effect i s t) (x : Byte) :
    t.readMem x = s.readMem x ∨ StoresAt i s t x := by
  cases h with
  | regIndex | below | above | ldi | prn | add | mul | pop | ret | hlt | unrecognized => exact .inl rfl
  | @push _ a ha hs =>
    by_cases hx : x = s.sp - 1#8
    · subst hx
      exact .inr ⟨toNat_sub_one_of_ne_zero hs,
        .inl ⟨a, ⟨a.toNat, ha⟩, rfl, rfl, (State.readMem_writeMem ..).trans (if_pos rfl)⟩⟩
    · exact .inl ((State.readMem_writeMem ..).trans (if_neg hx))
  | @call _ a ha hs =>
    by_cases hx : x = s.sp - 1#8
    · subst hx
      exact .inr ⟨toNat_sub_one_of_ne_zero hs,
        .inr ⟨a, rfl, (State.readMem_writeMem ..).trans (if_pos rfl)⟩⟩
    · exact .inl ((State.readMem_writeMem ..).trans (if_neg hx))

/-- Only PUSH and CALL store. -/
theorem StoresAt.kind_eq (h : StoresAt i s t x) : i.kind = .push ∨ i.kind = .call := by
  obtain ⟨-, ⟨a, r, -, rfl, -⟩ | ⟨a, rfl, -⟩⟩ := h
  · exact .inl rfl
  · exact .inr rfl

/-- An instruction that is neither PUSH nor CALL leaves all of memory. -/
theorem Effect.readMem_eq_of_kind (h : Effect i s t) (hpush : i.kind ≠ .push) (hcall : i.kind ≠ .call)
    (x : Byte) : t.readMem x = s.readMem x :=
  (h.readMem_eq x).resolve_right fun hst => hst.kind_eq.elim hpush hcall

/-- An instruction that is not PRN outputs nothing. -/
theorem Effect.out_eq_of_kind (h : Effect i s t) (hprn : i.kind ≠ .prn) : t.out = s.out := by
  obtain hout | ⟨a, r, -, rfl, -⟩ := h.out_eq
  · exact hout
  · exact absurd rfl hprn

/-! ### The frames -/

/-- What LDI, ADD and MUL have in common: operand_a's register is the only one they write, and they have no
part in memory or in the output. -/
theorem Effect.frame_of_writes_operand (h : Effect i s t) (hi : i.kind ∈ [Kind.ldi, .add, .mul])
    (hw : ∀ r : RegIx, writesReg i r = (a.toNat == r.val)) :
    (∀ r : RegIx, r.val ≠ a.toNat → t.readReg r = s.readReg r) ∧ (∀ x, t.readMem x = s.readMem x) ∧
      t.out = s.out ∧ (SameStop s t ∨ t.run = .halted ∧ SameButStop s t) := by
  refine ⟨fun r hr => h.readReg_eq ?_, h.readMem_eq_of_kind ?_ ?_, h.out_eq_of_kind ?_,
    h.sameStop_or_sameButStop⟩
  · rw [hw]
    exact beq_eq_false_iff_ne.mpr hr.symm
  all_goals
    intro hk
    rw [hk] at hi
    exact absurd hi (by decide)

/-- Settles O36, from what each instruction can do: the registers it writes (`Effect.readReg_eq`), no byte
(`Effect.readMem_eq`), and the run state or nothing else (`Effect.sameStop_or_sameButStop`). -/
theorem frameOfRegisterInstructions : Obligations.FrameOfRegisterInstructions := by
  unfold Obligations.FrameOfRegisterInstructions
  refine ⟨fun a b s t h => ?_, fun a s t h => ?_⟩
  · obtain h | h | h := h
    all_goals exact (exec_effect h).frame_of_writes_operand (by simp [Instr.kind]) fun _ => rfl
  · have he := exec_effect h
    exact ⟨fun _ => he.readReg_eq rfl, he.readMem_eq_of_kind nofun nofun, he.sameStop_or_sameButStop⟩

/-- Settles O37: both write R7 alone (`Effect.readReg_eq`), and a byte they change is the one they store
(`Effect.readMem_eq`). -/
theorem frameOfStoringInstructions : Obligations.FrameOfStoringInstructions := by
  unfold Obligations.FrameOfStoringInstructions
  intro a s t h
  obtain h | h := h
  all_goals
    have he := exec_effect h
    exact ⟨fun r hr => he.readReg_eq (beq_eq_false_iff_ne.mpr hr),
      fun x hx => (he.readMem_eq x).resolve_right fun hst => hx hst.1,
      he.out_eq_of_kind nofun, he.sameStop_or_sameButStop⟩

/-- Settles O38: neither stores (`Effect.readMem_eq_of_kind`), and beside R7 only POP's destination is written
(`Effect.readReg_eq`). -/
theorem frameOfLoadingInstructions : Obligations.FrameOfLoadingInstructions := by
  unfold Obligations.FrameOfLoadingInstructions
  refine ⟨fun a s t h => ?_, fun s t h => ?_⟩
  · have he := exec_effect h
    exact ⟨fun r h7 hr => he.readReg_eq
        (Bool.or_eq_false_iff.mpr ⟨beq_eq_false_iff_ne.mpr hr.symm, beq_eq_false_iff_ne.mpr h7⟩),
      he.readMem_eq_of_kind nofun nofun, he.out_eq_of_kind nofun, he.sameStop_or_sameButStop⟩
  · have he := exec_effect h
    exact ⟨fun r h7 => he.readReg_eq (beq_eq_false_iff_ne.mpr h7),
      he.readMem_eq_of_kind nofun nofun, he.out_eq_of_kind nofun, he.sameStop_or_sameButStop⟩

/-- Settles O40: a step that changes a byte has executed an instruction, and that instruction stores there
(`Effect.readMem_eq`). -/
theorem onlyPushAndCallStore : Obligations.OnlyPushAndCallStore := by
  unfold Obligations.OnlyPushAndCallStore
  intro s t x hstep hx
  obtain ⟨-, rfl⟩ | ⟨-, -, rfl⟩ | ⟨i, hf, he⟩ := step_cases hstep
  · exact absurd rfl hx
  · exact absurd rfl hx
  · obtain ⟨haddr, ⟨a, r, hr, rfl, hbyte⟩ | ⟨a, rfl, hbyte⟩⟩ := (he.readMem_eq x).resolve_left hx
    · exact ⟨haddr, .inl ⟨a, r, hr, hf, hbyte⟩⟩
    · exact ⟨haddr, .inr ⟨a, hf, hbyte⟩⟩

/-! ### Registers an instruction does not name (R25)

Another value in such a register is carried through each check of a rule, which does not read it. -/

section
variable {v : Byte}

theorem readReg_writeReg_of_ne (h : q ≠ r) : (s.writeReg r v).readReg q = s.readReg q := by
  rw [State.readReg_writeReg, if_neg h]

theorem sp_writeReg_of_ne_seven (h : r ≠ 7) : (s.writeReg r v).sp = s.sp := by
  rw [State.sp_writeReg, if_neg h]

theorem writeSp_writeReg (h : r ≠ 7) (x : Byte) :
    (s.writeReg r v).writeSp x = (s.writeSp x).writeReg r v :=
  State.writeReg_comm s r 7 v x h

theorem withPcPlus_writeReg {n : Nat} {body body' : Byte → Result}
    (h : ∀ x, body' x = onNext (·.writeReg r v) (body x)) :
    withPcPlus n (s.writeReg r v) body' = onNext (·.writeReg r v) (withPcPlus n s body) := by
  unfold withPcPlus
  rw [onNext_withAddr fun _ => rfl, funext h]
  rfl

theorem withReg_writeReg {body body' : RegIx → Result} (hr : (a.toNat == r.val) = false)
    (h : ∀ q, q ≠ r → body' q = onNext (·.writeReg r v) (body q)) :
    withReg a (s.writeReg r v) body' = onNext (·.writeReg r v) (withReg a s body) := by
  rw [onNext_withReg fun _ => rfl]
  by_cases ha : a.toNat < 8
  · rw [withReg_of_lt ha, withReg_of_lt ha]
    exact h _ fun hq => beq_eq_false_iff_ne.mp hr (congrArg Fin.val hq)
  · rw [withReg_of_ge (by omega), withReg_of_ge (by omega)]

theorem withPush_writeReg {body body' : Byte → State → Result} (h7 : r ≠ 7)
    (h : ∀ x, body' x ((s.writeSp x).writeReg r v) = onNext (·.writeReg r v) (body x (s.writeSp x))) :
    withPush (s.writeReg r v) body' = onNext (·.writeReg r v) (withPush s body) := by
  unfold withPush
  rw [onNext_withAddr fun _ => rfl]
  simp only [sp_writeReg_of_ne_seven h7, writeSp_writeReg h7, h]

theorem withPopped_writeReg {s1 : State} {body body' : State → Result} (h7 : r ≠ 7)
    (h : ∀ x, body' ((s1.writeSp x).writeReg r v) = onNext (·.writeReg r v) (body (s1.writeSp x))) :
    withPopped (s.writeReg r v) (s1.writeReg r v) body' =
      onNext (·.writeReg r v) (withPopped s s1 body) := by
  unfold withPopped
  rw [onNext_withAddr fun _ => rfl]
  simp only [sp_writeReg_of_ne_seven h7, writeSp_writeReg h7, h]

/-- The ALU block in place neither reads nor writes a register that is not one of its operands (R78). -/
theorem aluInPlace_writeReg (tag : AluTag) (ha : (a.toNat == r.val) = false) (hb : (b.toNat == r.val) = false) :
    aluInPlace tag a b (s.writeReg r v) = onNext (·.writeReg r v) (aluInPlace tag a b s) := by
  refine withReg_writeReg ha fun p hp => withReg_writeReg hb fun q hq => withPcPlus_writeReg fun x => ?_
  rw [readReg_writeReg_of_ne hp, readReg_writeReg_of_ne hq]
  cases halu : alu tag (s.readReg p) (s.readReg q) with
  | none => rw [withAlu_of_none halu, withAlu_of_none halu]; rfl
  | some w =>
    rw [withAlu_of_some halu, withAlu_of_some halu, State.writeReg_comm _ _ _ _ _ hp.symm]
    rfl

/-- Settles O39: in each rule the value is carried through the checks, and the reads and writes behind them are
of registers the instruction names. -/
theorem unnamedRegistersHaveNoPart : Obligations.UnnamedRegistersHaveNoPart := by
  unfold Obligations.UnnamedRegistersHaveNoPart
  intro i r v s hi
  cases i with
  | ldi a b =>
    rw [exec_ldi, exec_ldi]
    refine withReg_writeReg hi fun q hq => withPcPlus_writeReg fun x => ?_
    rw [State.writeReg_comm _ _ _ _ _ hq.symm]
    rfl
  | prn a =>
    rw [exec_prn, exec_prn]
    refine withReg_writeReg hi fun q hq => withPcPlus_writeReg fun x => ?_
    rw [readReg_writeReg_of_ne hq]
    rfl
  | add a b | mul a b =>
    obtain ⟨ha, hb⟩ := Bool.or_eq_false_iff.mp hi
    exact aluInPlace_writeReg _ ha hb
  | push a =>
    obtain ⟨ha, h7⟩ := Bool.or_eq_false_iff.mp hi
    rw [exec_push, exec_push]
    refine withReg_writeReg ha fun q hq => withPush_writeReg (beq_eq_false_iff_ne.mp h7) fun sp => ?_
    rw [readReg_writeReg_of_ne hq]
    exact withPcPlus_writeReg fun x => rfl
  | pop a =>
    obtain ⟨ha, h7⟩ := Bool.or_eq_false_iff.mp hi
    have h7 : r ≠ 7 := beq_eq_false_iff_ne.mp h7
    rw [exec_pop, exec_pop]
    refine withReg_writeReg ha fun q hq => ?_
    rw [sp_writeReg_of_ne_seven h7, State.writeReg_readMem, State.writeReg_comm _ _ _ _ _ hq.symm]
    exact withPopped_writeReg h7 fun sp => withPcPlus_writeReg fun x => rfl
  | call a =>
    obtain ⟨ha, h7⟩ := Bool.or_eq_false_iff.mp hi
    rw [exec_call, exec_call]
    refine withReg_writeReg ha fun q hq => withPush_writeReg (beq_eq_false_iff_ne.mp h7) fun sp => ?_
    rw [readReg_writeReg_of_ne hq]
    exact withPcPlus_writeReg fun x => rfl
  | ret =>
    have h7 : r ≠ 7 := beq_eq_false_iff_ne.mp hi
    rw [exec_ret, exec_ret, sp_writeReg_of_ne_seven h7]
    exact withPopped_writeReg h7 fun sp => rfl
  | hlt | unrecognized => rfl

end

end Sys2Proof.Machine
end

section
/-! PROOF. What a cycle reads and stores of memory (`20_memory.md` §7, §8), a RET after its CALL
(`44_call_ret.md`), and a word placed at the PC (`40_cycle_and_units.md` §7). -/

namespace Sys2Proof.Machine

variable {s t u w : State} {i : Instr} {r : RegIx} {a b p x y z v : Byte} {rest : List Byte}

/-! ### A byte read after a store -/

theorem readMem_writeMem_same : (s.writeMem x v).readMem x = v := by
  rw [State.readMem_writeMem, if_pos rfl]

theorem readMem_writeMem_of_ne (h : y ≠ x) : (s.writeMem x v).readMem y = s.readMem y := by
  rw [State.readMem_writeMem, if_neg h]

/-! ### Another value in one byte (R31, 20_memory.md §8)

The checks of a rule do not read memory, so with another value in the byte at `x` a rule passes the same checks;
its result then differs in that byte alone, unless it stores there. -/

/-- The states differ in no more than the byte at `x`. -/
def SameButByte (x : Byte) (t u : State) : Prop :=
  u.regs = t.regs ∧ u.pc = t.pc ∧ u.out = t.out ∧ SameStop t u ∧ ∀ y, y ≠ x → u.readMem y = t.readMem y

/-- Of two results of `i` at `s`, the second with `v` in the byte at `x` before: the second keeps `v` there, or
has stored over it what the first has stored, and they differ in nothing else. -/
def CarriesByte (i : Instr) (s : State) (x v : Byte) (r r' : Result) : Prop :=
  ∀ t, r = .next t → ∃ u, r' = .next u ∧ SameButByte x t u ∧
    (u.readMem x = v ∨ u.readMem x = t.readMem x ∧ (x.toNat : Int) = (s.sp.toNat : Int) - 1 ∧
      (i.kind = .push ∨ i.kind = .call))

theorem sameButByte_writeMem (x v : Byte) (t : State) : SameButByte x t (t.writeMem x v) :=
  ⟨rfl, rfl, rfl, ⟨rfl, rfl, rfl⟩, fun _ hy => readMem_writeMem_of_ne hy⟩

theorem CarriesByte.kept (t : State) : CarriesByte i s x v (.next t) (.next (t.writeMem x v)) := by
  rintro _ ⟨⟩
  exact ⟨_, rfl, sameButByte_writeMem x v t, .inl readMem_writeMem_same⟩

/-- The store of a push-type operation, and then the new PC. -/
theorem CarriesByte.stored (hi : i.kind = .push ∨ i.kind = .call) (hsp : s.sp ≠ 0#8) :
    CarriesByte i s x v (.next ((w.writeMem (s.sp - 1#8) b).setPc p))
      (.next (((w.writeMem x v).writeMem (s.sp - 1#8) b).setPc p)) := by
  rintro _ ⟨⟩
  refine ⟨_, rfl, ⟨rfl, rfl, rfl, ⟨rfl, rfl, rfl⟩, fun y hy => ?_⟩, ?_⟩
  · simp only [State.setPc_readMem, State.readMem_writeMem, if_neg hy]
  · simp only [State.setPc_readMem]
    by_cases hx : x = s.sp - 1#8
    · subst hx
      exact .inr ⟨by rw [readMem_writeMem_same, readMem_writeMem_same], toNat_sub_one_of_ne_zero hsp, hi⟩
    · exact .inl (by rw [readMem_writeMem_of_ne hx, readMem_writeMem_same])

theorem CarriesByte.of_withAddr {n : Int} {body body' : Byte → Result}
    (h : ∀ y, CarriesByte i s x v (body y) (body' y)) :
    CarriesByte i s x v (withAddr n s body) (withAddr n (s.writeMem x v) body') := by
  unfold withAddr
  split
  · exact h _
  · exact .kept _

theorem CarriesByte.of_withReg {body body' : RegIx → Result}
    (h : ∀ r, CarriesByte i s x v (body r) (body' r)) :
    CarriesByte i s x v (withReg a s body) (withReg a (s.writeMem x v) body') := by
  unfold withReg
  split
  · exact h _
  · exact .kept _

theorem CarriesByte.of_withPush {body body' : Byte → State → Result}
    (h : s.sp ≠ 0#8 → CarriesByte i s x v (body (s.sp - 1#8) (s.writeSp (s.sp - 1#8)))
      (body' (s.sp - 1#8) ((s.writeSp (s.sp - 1#8)).writeMem x v))) :
    CarriesByte i s x v (withPush s body) (withPush (s.writeMem x v) body') := by
  by_cases hsp : s.sp = 0#8
  · rw [withPush_of_zero hsp, withPush_of_zero (s := s.writeMem x v) hsp]
    exact .kept _
  · rw [withPush_of_ne hsp, withPush_of_ne (s := s.writeMem x v) hsp]
    exact h hsp

/-- Every instruction carries another value in a byte that it does not pop. -/
theorem exec_carriesByte (hpop : x = s.sp → i.kind ≠ .pop ∧ i.kind ≠ .ret) (v : Byte) :
    CarriesByte i s x v (exec i s) (exec i (s.writeMem x v)) := by
  cases i with
  | ldi a b =>
    rw [exec_ldi, exec_ldi]
    exact .of_withReg fun _ => .of_withAddr fun _ => .kept _
  | prn a =>
    rw [exec_prn, exec_prn]
    exact .of_withReg fun _ => .of_withAddr fun _ => .kept _
  | add a b =>
    rw [exec_add, exec_add]
    exact .of_withReg fun _ => .of_withReg fun _ => .of_withAddr fun _ => .kept _
  | mul a b =>
    rw [exec_mul, exec_mul]
    exact .of_withReg fun _ => .of_withReg fun _ => .of_withAddr fun _ => .kept _
  | push a =>
    rw [exec_push, exec_push]
    exact .of_withReg fun _ => .of_withPush fun hsp => .of_withAddr fun _ => .stored (.inl rfl) hsp
  | call a =>
    rw [exec_call, exec_call]
    exact .of_withReg fun _ => .of_withPush fun hsp => .of_withAddr fun _ => .stored (.inr rfl) hsp
  | pop a =>
    have hsp : s.sp ≠ x := fun h => (hpop h.symm).1 rfl
    rw [exec_pop, exec_pop, State.writeMem_sp, readMem_writeMem_of_ne hsp]
    exact .of_withReg fun _ => .of_withAddr fun _ => .of_withAddr fun _ => .kept _
  | ret =>
    have hsp : s.sp ≠ x := fun h => (hpop h.symm).2 rfl
    rw [exec_ret, exec_ret, State.writeMem_sp, readMem_writeMem_of_ne hsp]
    exact .of_withAddr fun _ => .kept _
  | hlt | unrecognized => exact .kept _

/-- A store outside the three fetched bytes leaves what is fetched (R71, R72). -/
theorem Fetches.writeMem (h : Fetches s i) (h0 : x ≠ s.pc) (h1 : x ≠ s.pc + 1#8) (h2 : x ≠ s.pc + 2#8)
    (v : Byte) : Fetches (s.writeMem x v) i := by
  obtain ⟨hrun, hpc, rest, hdec⟩ := h
  refine ⟨hrun, hpc, rest, ?_⟩
  rw [State.writeMem_pc, readMem_writeMem_of_ne h0.symm, readMem_writeMem_of_ne h1.symm,
    readMem_writeMem_of_ne h2.symm]
  exact hdec

/-- Settles O41: the same instruction is fetched (`Fetches.writeMem`), and its rule carries the other value to
its result (`exec_carriesByte`); a halted core and the operand fetch's stop leave the byte alone. -/
theorem cycleReadsOnlyFetchedAndPoppedBytes : Obligations.CycleReadsOnlyFetchedAndPoppedBytes := by
  unfold Obligations.CycleReadsOnlyFetchedAndPoppedBytes
  intro s t x v h0 h1 h2 hpop hstep
  obtain ⟨u, hu, ⟨hregs, hpc, hout, hstop, hmem⟩, hbyte⟩ : ∃ u, step (s.writeMem x v) = .next u ∧
      SameButByte x t u ∧ (u.readMem x = v ∨ u.readMem x = t.readMem x ∧
        (x.toNat : Int) = (s.sp.toNat : Int) - 1 ∧ ∃ i, Fetches s i ∧ (i.kind = .push ∨ i.kind = .call)) := by
    obtain ⟨hhalted, rfl⟩ | ⟨hrun, hpc, rfl⟩ | ⟨i, hf, -⟩ := step_cases hstep
    · exact ⟨_, cycleWith_of_halted opcodes hhalted, sameButByte_writeMem .., .inl readMem_writeMem_same⟩
    · exact ⟨_, cycleWith_of_ge opcodes hrun hpc, sameButByte_writeMem x v (raise (.memAddr 256) s),
        .inl readMem_writeMem_same⟩
    · rw [step_of_fetches hf] at hstep
      rw [step_of_fetches (hf.writeMem h0 h1 h2 v)]
      obtain ⟨u, hu, hsame, hbyte⟩ := exec_carriesByte (fun hx => hpop hx i hf) v t hstep
      exact ⟨u, hu, hsame, hbyte.imp_right fun ⟨hread, haddr, hk⟩ => ⟨hread, haddr, i, hf, hk⟩⟩
  exact ⟨u, hu, hregs, hpc, hout, hstop, hmem, hbyte⟩

/-! ### A byte stored over the next opcode (20_memory.md §7) -/

/-- A PUSH that leaves the core running has completed (R120). -/
theorem eq_pushed_of_running (h : exec (.push a) s = .next t) (ht : t.run = .running)
    (hr : r.val = a.toNat) : t = s.pushed r := by
  cases exec_effect h with
  | regIndex | below | above => cases ht
  | push ha =>
    obtain rfl : r = ⟨a.toNat, ha⟩ := Fin.ext hr
    rfl

/-- Settles O48: the completed PUSH (`State.pushed`) has its byte at the new PC and leaves the two after it, so
the next cycle fetches these three. -/
theorem storedByteIsFetchedNext : Obligations.StoredByteIsFetchedNext := by
  unfold Obligations.StoredByteIsFetchedNext
  intro s t a i rest hf hstep ht hpc hsp r hr hdec
  rw [step_of_fetches hf] at hstep
  obtain rfl := eq_pushed_of_running hstep ht hr
  have haddr : s.pc + 2#8 = s.sp - 1#8 := by bv_omega
  have h3 : s.pc + 2#8 + 1#8 = s.pc + 3#8 := by bv_omega
  have h4 : s.pc + 2#8 + 2#8 = s.pc + 4#8 := by bv_omega
  have hne3 : s.pc + 3#8 ≠ s.sp - 1#8 := by bv_omega
  have hne4 : s.pc + 4#8 ≠ s.sp - 1#8 := by bv_omega
  refine step_of_fetches ⟨ht, ?_, rest, ?_⟩
  · rw [State.pushed_pc]
    bv_omega
  · rw [State.pushed_pc, h3, h4, State.readMem_pushed, State.readMem_pushed, State.readMem_pushed,
      if_pos haddr, if_neg hne3, if_neg hne4]
    exact hdec

/-! ### RET after CALL (44_call_ret.md, the laws of the pair) -/

/-- A CALL that leaves the core running has completed (R130). -/
theorem exists_called_of_running (h : exec (.call a) s = .next t) (ht : t.run = .running) :
    s.sp ≠ 0#8 ∧ ∃ r, t = s.called r := by
  cases exec_effect h with
  | regIndex | below | above => cases ht
  | call ha hsp => exact ⟨hsp, ⟨a.toNat, ha⟩, rfl⟩

/-- A balanced run returns the stack pointer to where it was (`StackRun.sp_eq`). -/
theorem StackRun.sp_eq_of_balanced (h : StackRun s 0 u) : u.sp = s.sp := by
  have hsp := h.sp_eq
  exact BitVec.eq_of_toNat_eq (by omega)

/-- Settles O51: at the RET the stack pointer is the one CALL left, below a byte that exists, and the byte there
is the return address, which did not wrap because CALL was fetched at 253 or below. -/
theorem returnGoesAfterCall : Obligations.ReturnGoesAfterCall := by
  unfold Obligations.ReturnGoesAfterCall
  intro s s1 u a hf hstep hrun hbal hbyte hret
  rw [step_of_fetches hf] at hstep
  obtain ⟨hsp, r, rfl⟩ := exists_called_of_running hstep hrun
  have hu : u.sp = s.sp - 1#8 := hbal.sp_eq_of_balanced.trans State.called_sp
  have hpc : s.pc.toNat ≤ 253 := hf.2.1
  have hmax : u.sp ≠ 255#8 := by
    rw [hu]
    bv_omega
  have haddr : u.readMem u.sp = s.pc + 2#8 := by
    rw [hu]
    rw [State.called_sp, State.readMem_called, if_pos rfl] at hbyte
    exact hbyte
  refine ⟨u.returned, ?_, hret.1, ?_, ?_⟩
  · rw [step_of_fetches hret, exec_ret_completes hmax]
  · rw [State.returned_pc, haddr]
    bv_omega
  · rw [State.returned_sp, hu, sub_add_cancel]

/-! ### A word placed at the PC (log entry 7) -/

/-- A word of the table that is read as an instruction is three bytes that decode to it. -/
theorem decode_of_decodeTableWord {nbits n : Nat} (h : decodeTableWord nbits n = some i) :
    ∃ rest, decode (wordBytes nbits n) = .instr i rest := by
  unfold decodeTableWord at h
  split at h
  · next j rest hj =>
    cases h
    exact ⟨rest, hj⟩
  · cases h
  · cases h

/-- Bytes placed at the PC, as long as they lie in memory, are read back from there on. -/
theorem readMem_placeAtPc {bytes : List Byte} {n : Nat} (hn : n < bytes.length)
    (hfit : s.pc.toNat + n ≤ 255) :
    (placeAtPc s bytes).readMem (s.pc + BitVec.ofNat 8 n) = bytes[n] := by
  have haddr : (s.pc + BitVec.ofNat 8 n).toNat = s.pc.toNat + n := by
    rw [BitVec.toNat_add, BitVec.toNat_ofNat]
    omega
  have hread : (placeAtPc s bytes).readMem (s.pc + BitVec.ofNat 8 n) =
      memLookup (memPlace s.mem s.pc.toNat bytes) (s.pc.toNat + n) := congrArg _ haddr
  rw [hread, memLookup_memPlace _ _ _ _ (Nat.lt_succ_of_le hfit), if_pos ⟨by omega, by omega⟩,
    Nat.add_sub_cancel_left, List.getD_eq_getElem _ _ hn]

/-- Three bytes placed at the PC are what the next cycle fetches. -/
theorem fetches_placeAtPc (hpc : s.pc.toNat ≤ 253) (hdec : decode [x, y, z] = .instr i rest) :
    Fetches (placeAtPc s [x, y, z]) i := by
  have h0 : (placeAtPc s [x, y, z]).readMem (s.pc + 0#8) = x :=
    readMem_placeAtPc (n := 0) (by simp) (by omega)
  have h1 : (placeAtPc s [x, y, z]).readMem (s.pc + 1#8) = y :=
    readMem_placeAtPc (n := 1) (by simp) (by omega)
  have h2 : (placeAtPc s [x, y, z]).readMem (s.pc + 2#8) = z :=
    readMem_placeAtPc (n := 2) (by simp) (by omega)
  have hpc0 : s.pc + 0#8 = s.pc := add_zero s.pc
  rw [hpc0] at h0
  have hsame : (placeAtPc s [x, y, z]).pc = s.pc := rfl
  exact ⟨rfl, hpc, rest, by rw [hsame, h0, h1, h2, hdec]⟩

/-- Settles O53: the word is three bytes that decode to the instruction (`decode_of_decodeTableWord`), and the
next cycle fetches them (`fetches_placeAtPc`). -/
theorem placedWordRunsNext : Obligations.PlacedWordRunsNext := by
  unfold Obligations.PlacedWordRunsNext
  intro s nbits n i hpc hword
  obtain ⟨rest, hdec⟩ := decode_of_decodeTableWord hword
  exact step_of_fetches (fetches_placeAtPc hpc hdec)

end Sys2Proof.Machine
end

section
/-! PROOF. The decoder's control table carried out by the five blocks, against the instruction rules
(`40_cycle_and_units.md` §5, §6): a row's list of checks is the rule's nested checks, whose results the blocks
compute without the checks. -/

namespace Sys2Proof.Machine

variable {s t : State} {a : Byte} {stops : List (Option Stop)}

/-! ### Checks without their results

Behind a check that has passed, the register lines and the narrowed sums of the blocks are what the check hands
on, so the rest of a rule can be stated with them. -/

theorem withReg_eq_regLines (a : Byte) (s : State) (body : RegIx → Result) :
    withReg a s body = withReg a s fun _ => body (regLines a) := by
  unfold withReg
  split
  · next h => exact congrArg body (Fin.ext (Nat.mod_eq_of_lt h).symm)
  · rfl

theorem withPcPlus_eq_sum (n : Nat) (s : State) (body : Byte → Result) :
    withPcPlus n s body = withAddr (pcAdder s.pc n) s fun _ => body (s.pc + BitVec.ofNat 8 n) := by
  unfold withPcPlus withAddr pcAdder
  rw [BitVec.ofInt_natCast, BitVec.ofNat_add, BitVec.ofNat_toNat, BitVec.setWidth_eq]

theorem withPush_eq_decrement (s : State) (body : Byte → State → Result) :
    withPush s body =
      withAddr ((s.sp.toNat : Int) - 1) s fun _ => body (s.sp - 1#8) (s.writeSp (s.sp - 1#8)) := by
  by_cases h : s.sp = 0#8
  · rw [withPush_of_zero h, h]
    rfl
  · have hsp := toNat_sub_one_of_ne_zero h
    rw [withPush_of_ne h, withAddr_of_mem (by omega) (by omega)]

theorem withPopped_eq_increment (s s1 : State) (body : State → Result) :
    withPopped s s1 body =
      withAddr ((s1.sp.toNat : Int) + 1) s fun _ => body (s1.writeSp (s1.sp + 1#8)) := by
  by_cases h : s1.sp = 255#8
  · rw [withPopped_of_max h, h, withAddr_of_gt (by decide)]
    rfl
  · have hsp := toNat_add_one_of_ne_max h
    rw [withPopped_of_ne h, withAddr_of_mem (by omega) (by omega)]

/-! ### Check, then commit (R75) -/

/-- The first stop of a list of checks, or the writes when there is none. -/
def commitUnless (stops : List (Option Stop)) (s t : State) : Result :=
  match stops.findSome? id with
  | some k => .next (raise k s)
  | none => .next t

/-- A row that does not halt is its checks and then its writes. -/
theorem datapath_eq_commitUnless {c : Control} (h : c.halt = .none) (ir a b : Byte) (s : State) :
    datapath c ir a b s = commitUnless (controlStops c a b s) s (controlWrites c a b s) := by
  obtain ⟨_, _, _, _, _, _, _, _, _, use⟩ := c
  obtain rfl : use = .none := h
  rfl

@[simp] theorem commitUnless_nil : commitUnless [] s t = .next t := rfl

@[simp] theorem commitUnless_none : commitUnless (none :: stops) s t = commitUnless stops s t := rfl

@[simp] theorem commitUnless_some (k : Stop) : commitUnless (some k :: stops) s t = .next (raise k s) := rfl

/-- The check of a register column. -/
@[simp] theorem commitUnless_reg :
    commitUnless (OperandUse.reg.stop a :: stops) s t = withReg a s fun _ => commitUnless stops s t := by
  by_cases ha : a.toNat < 8
  · rw [withReg_of_lt ha, OperandUse.stop, if_pos ha, commitUnless_none]
  · rw [withReg_of_ge (by omega), OperandUse.stop, if_neg ha, commitUnless_some]

/-- The check of a computed address. -/
@[simp] theorem commitUnless_addr (x : Int) :
    commitUnless (addrStop x :: stops) s t = withAddr x s fun _ => commitUnless stops s t := by
  unfold addrStop withAddr
  split <;> rfl

@[simp] theorem OperandUse.stop_imm : OperandUse.imm.stop a = none := rfl

@[simp] theorem OperandUse.stop_ignored : OperandUse.ignored.stop a = none := rfl

/-! ### The rows -/

/-- The row of a three-byte ALU instruction, for any operator tag. -/
def aluRow (tag : AluTag) : Control :=
  ⟨some 3, .reg, .reg, some tag, .alu, false, .none, .none, .plus 3, .none⟩

/-- The row of a tag is the ALU block in place (R78), an unsupported tag's stop included. -/
theorem datapath_aluRow (tag : AluTag) (ir a b : Byte) (s : State) :
    datapath (aluRow tag) ir a b s = aluInPlace tag a b s := by
  rw [datapath_eq_commitUnless rfl, aluInPlace, withReg_eq_regLines a, withReg_eq_regLines b]
  cases halu : alu tag (s.readReg (regLines a)) (s.readReg (regLines b)) with
  | none =>
    simp [aluRow, controlStops, aluResult, halu, withPcPlus_eq_sum, withAlu_of_none halu]
  | some v =>
    simp [aluRow, controlStops, aluResult, halu, withPcPlus_eq_sum, withAlu_of_some halu, controlWrites,
      afterDecrement, afterRegWrite]

/-! What each row writes once its checks have passed. -/

section
variable (a b : Byte) (s : State)

theorem controlWrites_ldi :
    controlWrites (controlRow .ldi) a b s = (s.writeReg (regLines a) b).setPc (s.pc + 3#8) := rfl

theorem controlWrites_prn :
    controlWrites (controlRow .prn) a b s = (s.emit (s.readReg (regLines a))).setPc (s.pc + 2#8) := rfl

theorem controlWrites_push : controlWrites (controlRow .push) a b s = s.pushed (regLines a) := by
  simp [controlWrites, controlRow, afterDecrement, afterRegWrite, State.pushed, State.pushedByte]

theorem controlWrites_call : controlWrites (controlRow .call) a b s = s.called (regLines a) := by
  simp [controlWrites, controlRow, afterDecrement, afterRegWrite, State.called]

theorem controlWrites_pop : controlWrites (controlRow .pop) a b s = s.popped (regLines a) := rfl

theorem controlWrites_ret : controlWrites (controlRow .ret) a b s = s.returned := rfl

end

/-- The row of each kind, carried out, is the rule of the instruction of that kind. -/
theorem datapath_controlRow (k : Kind) (ir a b : Byte) (s : State) :
    datapath (controlRow k) ir a b s = exec (instrOfKind ir a b k) s := by
  cases k with
  | hlt | unrecognized => rfl
  | add | mul => exact datapath_aluRow _ ir a b s
  | ldi =>
    rw [datapath_eq_commitUnless rfl, controlWrites_ldi, instrOfKind, exec_ldi, withReg_eq_regLines]
    simp [controlRow, controlStops, withPcPlus_eq_sum]
  | prn =>
    rw [datapath_eq_commitUnless rfl, controlWrites_prn, instrOfKind, exec_prn, withReg_eq_regLines]
    simp [controlRow, controlStops, withPcPlus_eq_sum]
  | push =>
    rw [datapath_eq_commitUnless rfl, controlWrites_push, instrOfKind, exec_push, withReg_eq_regLines]
    simp [controlRow, controlStops, withPcPlus_eq_sum, withPush_eq_decrement, State.pushed, State.pushedByte]
  | call =>
    rw [datapath_eq_commitUnless rfl, controlWrites_call, instrOfKind, exec_call, withReg_eq_regLines]
    simp [controlRow, controlStops, withPcPlus_eq_sum, withPush_eq_decrement, State.called]
  | pop =>
    rw [datapath_eq_commitUnless rfl, controlWrites_pop, instrOfKind, exec_pop, withReg_eq_regLines]
    simp [controlRow, controlStops, withPcPlus_eq_sum, withPopped_eq_increment, afterRegWrite, State.popped]
  | ret =>
    rw [datapath_eq_commitUnless rfl, controlWrites_ret, instrOfKind, exec_ret]
    simp [controlRow, controlStops, withPopped_eq_increment, afterRegWrite, State.returned]

/-- Settles O52: three bytes decode to the instruction of the opcode byte's kind (`decodeWith_eq_instrOfKind`),
and the row of that kind carries out its rule (`datapath_controlRow`). -/
theorem controlTableMatchesInstructionRules : Obligations.ControlTableMatchesInstructionRules := by
  unfold Obligations.ControlTableMatchesInstructionRules
  intro oc ir a b s i rest hdec
  obtain ⟨rest', hkind⟩ := decodeWith_eq_instrOfKind oc ir a b
  cases hdec.symm.trans hkind
  exact datapath_controlRow _ ir a b s

end Sys2Proof.Machine
end
